-- ==== Sys2Proof/Syntax.lean ====
section
/-! DEFINITION. The commands of spec/30_encoding.md R53 (spec/opcode_table.json), one constructor per row. -/

namespace Sys2Proof

/-- A command with its operands. `a` is `off_arg` and `l` is `len_arg` of R52: signed integers, both counting bytes. -/
inductive Instr where
  /-- `LOADKEY A, L` (40_key_schedule.md R60), format OL. -/
  | loadkey (a l : Int)
  /-- `UPDATE A, L` (41_block_accumulator.md R70), format OL. -/
  | update (a l : Int)
  /-- `FINAL A` (42_finalizer.md R80), format O. -/
  | final (a : Int)
  /-- `RESET` (43_lifecycle_commands.md R90), format N. -/
  | reset
  /-- `TAGLEN` (43_lifecycle_commands.md R91), format N. -/
  | taglen
  /-- `DISPOSE` (43_lifecycle_commands.md R92), format N. -/
  | dispose
deriving DecidableEq, Repr

end Sys2Proof
end

