-- ==== Sys2Proof/WellFormed.lean ====
section
/-! DEFINITION. Which instructions an encoding exists for: every immediate lies in −2^31 .. 2^31−1 (spec/30_encoding.md R52). -/

namespace Sys2Proof

/-- The range of an immediate, `sext_32` of a 32-bit field (30_encoding.md R52). -/
abbrev ImmediateInRange (v : Int) : Prop := -(2 ^ 31) ≤ v ∧ v ≤ 2 ^ 31 - 1

/-- The instruction has an encoding. -/
def WellFormed : Instr → Bool
  | .loadkey a l => decide (ImmediateInRange a) && decide (ImmediateInRange l)
  | .update a l => decide (ImmediateInRange a) && decide (ImmediateInRange l)
  | .final a => decide (ImmediateInRange a)
  | .reset => true
  | .taglen => true
  | .dispose => true

end Sys2Proof
end

