-- ==== Sys2Proof/Word.lean ====
section
/-! DEFINITION. The word types of spec/00_scope.md §4 and the plain widenings between them. -/

namespace Sys2Proof

/-- u8: one byte of the operand memory or of the pending-block buffer. -/
abbrev Byte := BitVec 8

/-- u32: every register of the engine but `buf`, `off` and `ST` (00_scope.md §4). Its `+`, `*`, `-` wrap mod 2^32. -/
abbrev Word := BitVec 32

/-- u64: the partial sums (00_scope.md R6). Its `+`, `*` wrap mod 2^64. -/
abbrev DWord := BitVec 64

/-- A command word `CW` (30_encoding.md R50). -/
abbrev CommandWord := BitVec 96

/-- `zext_64` of a u32 (00_scope.md §4). -/
abbrev Word.widen (w : Word) : DWord := w.setWidth 64

end Sys2Proof
end

