-- ==== Sys2Proof/Decode.lean ====
section
/-! DEFINITION. Decoding a command word, total, rejecting by name; then the encoder (spec/30_encoding.md R50 to R56). -/

namespace Sys2Proof

/-- Why a command word matches no row, in the cases R54 lists. -/
inductive IllegalWord where
  /-- OP is 0x00 or 0x07..0xFF. -/
  | unknownOpcode
  /-- RSV is not zero, with any OP. -/
  | reservedNotZero
  /-- A is not zero in a format that does not use it. -/
  | offsetNotZero
  /-- L is not zero in a format that does not use it. -/
  | lengthNotZero
deriving DecidableEq, Repr

/-- R56: a word is exactly one of the six commands with its operands, or illegal. -/
inductive Decoded where
  | command (i : Instr)
  | illegal (why : IllegalWord)
deriving DecidableEq, Repr

namespace CommandWord

/-- OP, bits 7:0 (R50). -/
def op (cw : CommandWord) : BitVec 8 := cw.extractLsb' 0 8

/-- RSV, bits 31:8 (R50). -/
def rsv (cw : CommandWord) : BitVec 24 := cw.extractLsb' 8 24

/-- A, bits 63:32 (R50). -/
def offsetField (cw : CommandWord) : BitVec 32 := cw.extractLsb' 32 32

/-- L, bits 95:64 (R50). -/
def lengthField (cw : CommandWord) : BitVec 32 := cw.extractLsb' 64 32

end CommandWord

/-- `sext_32` of a field, as an integer (R52; 00_scope.md §4). -/
def sext32 (v : BitVec 32) : Int := if v.toNat < 2 ^ 31 then (v.toNat : Int) else (v.toNat : Int) - 2 ^ 32

/-- Format OL (R51): both immediates are operands. -/
def decodeOL (mk : Int → Int → Instr) (cw : CommandWord) : Decoded :=
  .command (mk (sext32 cw.offsetField) (sext32 cw.lengthField))

/-- Format O (R51): A is an operand, L must be zero. -/
def decodeO (mk : Int → Instr) (cw : CommandWord) : Decoded :=
  if cw.lengthField ≠ 0 then .illegal .lengthNotZero else .command (mk (sext32 cw.offsetField))

/-- Format N (R51): A and L must be zero. -/
def decodeN (i : Instr) (cw : CommandWord) : Decoded :=
  if cw.offsetField ≠ 0 then .illegal .offsetNotZero
  else if cw.lengthField ≠ 0 then .illegal .lengthNotZero
  else .command i

/-- R53, R54, R56: from a command word alone, never from the engine's state. -/
def decode (cw : CommandWord) : Decoded :=
  if cw.rsv ≠ 0 then .illegal .reservedNotZero
  else if cw.op = 0x01 then decodeOL .loadkey cw
  else if cw.op = 0x02 then decodeOL .update cw
  else if cw.op = 0x03 then decodeO .final cw
  else if cw.op = 0x04 then decodeN .reset cw
  else if cw.op = 0x05 then decodeN .taglen cw
  else if cw.op = 0x06 then decodeN .dispose cw
  else .illegal .unknownOpcode

/-- The host's numbering of an instruction's bits is R50's: bit 0 of the word is bit 0 of `w`, and the bits above `nbits` are
zero. There is one length, 96 bits (R51). -/
def decodeTableWord (nbits w : Nat) : Option Instr :=
  if nbits ≤ 96 then
    match decode (BitVec.ofNat 96 (w % 2 ^ nbits)) with
    | .command i => some i
    | .illegal _ => none
  else none

/-- The command word `OP + A·2^32 + L·2^64` with RSV = 0 (R50). -/
def assemble (op : BitVec 8) (a l : Int) : CommandWord :=
  BitVec.ofInt 32 l ++ (BitVec.ofInt 32 a ++ ((0 : BitVec 24) ++ op))

/-- R53, R57: RSV = 0 and unused immediates 0. -/
def encode : Instr → CommandWord
  | .loadkey a l => assemble 0x01 a l
  | .update a l => assemble 0x02 a l
  | .final a => assemble 0x03 a 0
  | .reset => assemble 0x04 0 0
  | .taglen => assemble 0x05 0 0
  | .dispose => assemble 0x06 0 0

/-- One row of R53's table: a word selects it when `CW & mask = pattern`. -/
structure OpcodeRow where
  mnemonic : String
  mask : CommandWord
  pattern : CommandWord
deriving DecidableEq, Repr

/-- R53's table, as opcode_table.json prints it. -/
def opcodeTable : List OpcodeRow :=
  [ ⟨"LOADKEY", 0x0000000000000000FFFFFFFF, 0x000000000000000000000001⟩,
    ⟨"UPDATE",  0x0000000000000000FFFFFFFF, 0x000000000000000000000002⟩,
    ⟨"FINAL",   0xFFFFFFFF00000000FFFFFFFF, 0x000000000000000000000003⟩,
    ⟨"RESET",   0xFFFFFFFFFFFFFFFFFFFFFFFF, 0x000000000000000000000004⟩,
    ⟨"TAGLEN",  0xFFFFFFFFFFFFFFFFFFFFFFFF, 0x000000000000000000000005⟩,
    ⟨"DISPOSE", 0xFFFFFFFFFFFFFFFFFFFFFFFF, 0x000000000000000000000006⟩ ]

/-- `CW & mask = match` (R53). -/
def OpcodeRow.selects (row : OpcodeRow) (cw : CommandWord) : Bool := cw &&& row.mask == row.pattern

/-- The row an instruction belongs to, by its mnemonic (R53). -/
def Instr.mnemonic : Instr → String
  | .loadkey _ _ => "LOADKEY"
  | .update _ _ => "UPDATE"
  | .final _ => "FINAL"
  | .reset => "RESET"
  | .taglen => "TAGLEN"
  | .dispose => "DISPOSE"

/-- R57: a command as the spec's assembler text spells it, one line; `encode` is the word the line assembles to. -/
def Instr.text : Instr → String
  | .loadkey a l => "LOADKEY " ++ toString a ++ ", " ++ toString l
  | .update a l => "UPDATE  " ++ toString a ++ ", " ++ toString l
  | .final a => "FINAL   " ++ toString a
  | .reset => "RESET"
  | .taglen => "TAGLEN"
  | .dispose => "DISPOSE"

end Sys2Proof
end

