-- ==== Sys2Proof/Config.lean ====
section
/-! DEFINITION. The fixed parameters of spec/00_scope.md R6, the range of the open parameter OM_BYTES (R7), and the
model's own choices for the one concrete reset state (logs 1 and 2). -/

namespace Sys2Proof.Config

/-- KEY_BYTES (R6). -/
abbrev keyBytes : Nat := 32

/-- BLOCK_BYTES (R6). -/
abbrev blockBytes : Nat := 16

/-- TAG_BYTES (R6). -/
abbrev tagBytes : Nat := 16

/-- P = 2^130 − 5 (R6). -/
abbrev modulus : Nat := 2 ^ 130 - 5

/-- The least OM_BYTES (R7). -/
abbrev minOmBytes : Nat := 32

/-- The greatest OM_BYTES (R7). -/
abbrev maxOmBytes : Nat := 2 ^ 31 - 1

/-- DESIGN CHOICE (log 1): OM_BYTES of `State.reset`, the size every vector of 95_test_vectors.md takes. OM_BYTES itself is
data of the state (`Memory.size`), so a statement over all states holds for every size. -/
abbrev resetOmBytes : Nat := 256

/-- DESIGN CHOICE (log 2): what an address of OM that is not listed reads as. -/
abbrev unlistedByte : Byte := 0#8

end Sys2Proof.Config
end

