-- ==== Sys2Proof/Machine/State.lean ====
section
/-! DEFINITION. The state of the engine (spec/10_state.md R10), its reset (R21), the host's actions and what the host is answered,
and the reasons a step can stop. -/

namespace Sys2Proof.Machine

/-- Five 32-bit limbs of a number in base 2^26 (10_state.md R12, R15): `x0` is limb 0. -/
structure Limbs where
  x0 : Word
  x1 : Word
  x2 : Word
  x3 : Word
  x4 : Word
deriving DecidableEq, Repr

/-- The registers `s[1..4]`; there is no `s[0]` (10_state.md R13). -/
structure Multiples where
  x1 : Word
  x2 : Word
  x3 : Word
  x4 : Word
deriving DecidableEq, Repr

/-- Four 32-bit words of a 128-bit number, `x0` the least significant (10_state.md R14; 42_finalizer.md R84). -/
structure Words4 where
  x0 : Word
  x1 : Word
  x2 : Word
  x3 : Word
deriving DecidableEq, Repr

/-- ST (10_state.md R17). -/
inductive Lifecycle where
  /-- ST = 0: no key loaded. -/
  | uninitialized
  /-- ST = 1: a key is loaded. -/
  | ready
deriving DecidableEq, Repr

/-- The operand memory OM (20_memory.md R30, R41): its size OM_BYTES (00_scope.md R7, log 1) and its bytes as a list of
(address, byte) pairs in one canonical form (`Memory.wf`); an address that is not listed reads `Config.unlistedByte` (log 2). -/
structure Memory where
  size : Nat
  cells : List Host.Cell
deriving DecidableEq, Repr

/-- The completion codes (60_exceptions.md R100). -/
inductive CompletionCode where
  | ok
  | invalidKeyLength
  | invalidArgument
  | outputTooShort
  | invalidState
  | illegalCommand
deriving DecidableEq, Repr

/-- What the host can do to the engine (70_reset_and_hazards.md R128; 30_encoding.md R50; 20_memory.md R31; 10_state.md R18; R120). -/
inductive HostAction where
  /-- Present a command word on the command port. -/
  | command (cw : CommandWord)
  /-- `HostWrite(a, n, bytes)`, n the length of `bytes`. -/
  | hostWrite (a : Int) (bytes : List Byte)
  /-- `HostRead(a, n)`. -/
  | hostRead (a : Int) (n : Nat)
  /-- Read a register of the register port; number 0 is STATUS. -/
  | readRegister (number : Nat)
  /-- Write a register of the register port. -/
  | writeRegister (number : Nat) (value : Word)
  /-- Hardware reset; OM holds `contents` afterwards, which the spec leaves unspecified (93_implementation_defined.md U1). -/
  | hardwareReset (contents : List Host.Cell)
deriving DecidableEq, Repr

/-- What the host is answered (70_reset_and_hazards.md R128). -/
inductive Observation where
  /-- The response word of a command (30_encoding.md R55). -/
  | response (rsp : Word)
  /-- The bytes a HostRead returns (20_memory.md R31). -/
  | memory (bytes : List Byte)
  /-- The value a register read returns (10_state.md R18). -/
  | register (value : Word)
deriving DecidableEq, Repr

/-- The state of the engine between commands (10_state.md R10), and two fields of the model's own (log 3). -/
structure State where
  /-- r[0..4] (R12). -/
  r : Limbs
  /-- s[1..4] (R13). -/
  s : Multiples
  /-- k[0..3] (R14). -/
  k : Words4
  /-- h[0..4] (R15). -/
  h : Limbs
  /-- buf[0..15] (R16). -/
  buf : Vector Byte 16
  /-- off, 0..16 (R16). -/
  off : Fin 17
  /-- ST (R17). -/
  st : Lifecycle
  /-- STATUS (R18). -/
  status : Word
  /-- OM (R10, R30). -/
  om : Memory
  /-- The model's own: the host's actions not yet performed, oldest first (log 3). -/
  commandPort : List HostAction
  /-- The model's own: what the host has been answered, oldest first (log 3). -/
  observed : List Observation
deriving DecidableEq, Repr

/-- Why a step stops with a fault. -/
inductive Fault where
  /-- Raised by UPDATE with at least one byte to absorb, and by FINAL, in a state that rests at off = 16, which no run reaches and for
  which the rules name no byte buf[16] to write (10_state.md R16; 42_finalizer.md R81). Safe (log 5). -/
  | bufferFull
deriving DecidableEq, Repr

/-- Why a step is refused. -/
inductive Refusal where
  /-- Raised by no instruction of this model: every constructor of Instr has its meaning. Safe. -/
  | notModelled (mnemonic : String)
  /-- Raised by a host access outside 0..OM_BYTES (20_memory.md R31; 93_implementation_defined.md U2: "refuse"). Safe (log 4). -/
  | hostAccessOutside
deriving DecidableEq, Repr

namespace State

/-- R21: every register after reset, with OM as given (U1: the model takes the initial OM as an argument), and the model's own fields
as given. -/
def afterReset (om : Memory) (commandPort : List HostAction) (observed : List Observation) : State where
  r := ⟨0, 0, 0, 0, 0⟩
  s := ⟨0, 0, 0, 0⟩
  k := ⟨0, 0, 0, 0⟩
  h := ⟨0, 0, 0, 0, 0⟩
  buf := Vector.replicate 16 0
  off := 0
  st := .uninitialized
  status := 0
  om := om
  commandPort := commandPort
  observed := observed

/-- The machine right after reset (R21), OM of the size every vector takes (log 1) with nothing listed (log 2), and no action of
the host pending (log 3). -/
def reset : State := afterReset ⟨Config.resetOmBytes, []⟩ [] []

end State

end Sys2Proof.Machine
end

