-- ==== Sys2Proof/Machine/Operands.lean ====
section
/-! DEFINITION. The bounds checks the commands make on their immediates, over the unbounded integers (spec/30_encoding.md R52;
spec/60_exceptions.md R101 to R103). -/

namespace Sys2Proof.Machine

/-- LOADKEY's length is not 32 (R101). -/
abbrev KeyLengthWrong (l : Int) : Prop := l ≠ Config.keyBytes

/-- The 32 key bytes do not lie inside OM (R102, LOADKEY). -/
abbrev KeyWindowOutside (a : Int) (om : Memory) : Prop := a < 0 ∨ a + Config.keyBytes > om.size

/-- UPDATE's window is malformed or not inside OM (R102, UPDATE). -/
abbrev MessageWindowOutside (a l : Int) (om : Memory) : Prop := a < 0 ∨ l < 0 ∨ a + l > om.size

/-- FINAL's offset is negative or beyond the end of OM (R102, FINAL). -/
abbrev TagOffsetMalformed (a : Int) (om : Memory) : Prop := a < 0 ∨ a > om.size

/-- Fewer than 16 bytes from FINAL's offset to the end of OM (R103). -/
abbrev TagWindowShort (a : Int) (om : Memory) : Prop := a + Config.tagBytes > om.size

/-- A host access to n bytes at a is not inside OM (20_memory.md R31). -/
abbrev HostWindowOutside (a : Int) (n : Nat) (om : Memory) : Prop := a < 0 ∨ a + n > om.size

end Sys2Proof.Machine
end

