-- ==== Sys2Proof/Machine/Flags.lean ====
section
/-! DEFINITION. The STATUS register and the response word, field by field (spec/10_state.md R18; spec/30_encoding.md R55). -/

namespace Sys2Proof.Machine

/-- The number of a completion code (60_exceptions.md R100). -/
def CompletionCode.number : CompletionCode → Byte
  | .ok => 0
  | .invalidKeyLength => 1
  | .invalidArgument => 2
  | .outputTooShort => 3
  | .invalidState => 4
  | .illegalCommand => 5

/-- ST as a bit (10_state.md R17). -/
def Lifecycle.bit : Lifecycle → BitVec 1
  | .uninitialized => 0
  | .ready => 1

/-- RSP (30_encoding.md R55): CODE in 7:0, VAL in 15:8, ST in 16, zeros in 31:17. -/
def responseWord (code val : Byte) (rdy : BitVec 1) : Word := (0 : BitVec 15) ++ (rdy ++ (val ++ code))

/-- STATUS.CODE, bits 7:0 (R18). -/
def statusCode (w : Word) : Byte := w.extractLsb' 0 8

/-- STATUS.VAL, bits 15:8 (R18). -/
def statusVal (w : Word) : Byte := w.extractLsb' 8 8

/-- STATUS.RDY, bit 16 (R18). -/
def statusRdy (w : Word) : BitVec 1 := w.extractLsb' 16 1

/-- STATUS bits 31:17, reserved, read as zero (R18). -/
def statusReserved (w : Word) : BitVec 15 := w.extractLsb' 17 15

end Sys2Proof.Machine
end

