-- ==== Sys2Proof/Machine/Ops.lean ====
section
/-! DEFINITION. The shared operations: bytes and words of the operand memory, answering a command, failing a command (this engine's
only exception entry), and clearing the message state. -/

namespace Sys2Proof.Machine

/-! ### Byte order (spec/20_memory.md R34) -/

/-- `LE32(b, i)` (00_scope.md §4): four bytes of a byte array, the first the least significant. -/
def le32 (b : Nat → Byte) (i : Nat) : Word := b (i + 3) ++ (b (i + 2) ++ (b (i + 1) ++ b i))

/-- The four bytes of a word, least significant first (R34). -/
def wordBytes (w : Word) : List Byte :=
  [w.extractLsb' 0 8, w.extractLsb' 8 8, w.extractLsb' 16 8, w.extractLsb' 24 8]

/-! ### The operand memory (spec/20_memory.md R30, R31) -/

/-- The byte a list of cells holds at an address. -/
def lookupCell (a : Nat) : List Host.Cell → Byte
  | [] => Config.unlistedByte
  | (b, v) :: rest => if a = b then v else lookupCell a rest

/-- `v` put before `rest`, unless `v` is what an unlisted address reads as. -/
def consCell (a : Nat) (v : Byte) (rest : List Host.Cell) : List Host.Cell :=
  if v = Config.unlistedByte then rest else (a, v) :: rest

/-- A list of cells with the byte at an address replaced, in canonical form. -/
def storeCell (a : Nat) (v : Byte) : List Host.Cell → List Host.Cell
  | [] => consCell a v []
  | (b, w) :: rest =>
    if a < b then consCell a v ((b, w) :: rest)
    else if a = b then consCell a v rest
    else (b, w) :: storeCell a v rest

namespace Memory

/-- The canonical form: addresses strictly rising, no cell equal to what an unlisted address reads as, every address inside OM. -/
abbrev wf (m : Memory) : Prop :=
  m.cells.Pairwise (fun x y => x.1 < y.1) ∧ ∀ c ∈ m.cells, c.2 ≠ Config.unlistedByte ∧ c.1 < m.size

/-- OM[a]. -/
def read (m : Memory) (a : Nat) : Byte := lookupCell a m.cells

/-- OM[a] <- v. Outside OM nothing is written: every command and every host access checks its whole window before the first write. -/
def write (m : Memory) (a : Nat) (v : Byte) : Memory :=
  if a < m.size then { m with cells := storeCell a v m.cells } else m

/-- OM[a .. a+n−1], ascending. -/
def readBytes (m : Memory) (a n : Nat) : List Byte := (List.range n).map fun j => m.read (a + j)

/-- OM[a+j] <- bytes[j], ascending. -/
def writeBytes (m : Memory) (a : Nat) : List Byte → Memory
  | [] => m
  | b :: rest => (m.write a b).writeBytes (a + 1) rest

/-- Four words written little-endian at a, a+4, a+8, a+12 (42_finalizer.md R80, R84: `MemWrite(A + 4j, 4, w_j)`). -/
def writeWords4 (m : Memory) (a : Nat) (w : Words4) : Memory :=
  m.writeBytes a (wordBytes w.x0 ++ wordBytes w.x1 ++ wordBytes w.x2 ++ wordBytes w.x3)

/-- A memory of a size that holds the given cells: any contents (93_implementation_defined.md U1), put in canonical form. -/
def ofCells (size : Nat) (contents : List Host.Cell) : Memory :=
  contents.foldl (fun m c => m.write c.1 c.2) ⟨size, []⟩

end Memory

/-! ### Writing registers -/

namespace State

/-- r, s and k are written together (10_state.md R13, R14). -/
def setKeySchedule (m : State) (r : Limbs) (s : Multiples) (k : Words4) : State := { m with r := r, s := s, k := k }

/-- h is written. -/
def setAccumulator (m : State) (h : Limbs) : State := { m with h := h }

/-- buf and off are written. -/
def setBuffer (m : State) (buf : Vector Byte 16) (off : Fin 17) : State := { m with buf := buf, off := off }

/-- ST is written. -/
def setLifecycle (m : State) (st : Lifecycle) : State := { m with st := st }

/-- OM is written. -/
def setMemory (m : State) (om : Memory) : State := { m with om := om }

/-- STATUS is written with a response word, which is also returned to the host (30_encoding.md R55). -/
def answer (m : State) (rsp : Word) : State := { m with status := rsp, observed := m.observed ++ [.response rsp] }

end State

/-! ### Answering a command (spec/30_encoding.md R55) -/

/-- `Respond(code, val)`: the response word, with ST as the command leaves it, goes to STATUS and to the host. -/
def respond (code : CompletionCode) (val : Byte) (m : State) : State :=
  m.answer (responseWord code.number val m.st.bit)

/-- `raise X` (60_exceptions.md R107): taking an exception. STATUS is written and nothing else: nothing is saved, no mode changes, there
is no vector; control is with the host. There is nothing to return from (R108). -/
def raise (code : CompletionCode) (m : State) : State := respond code 0 m

/-- R105: what an illegal command word does, in any lifecycle state. -/
def illegalCommand (m : State) : State := raise .illegalCommand m

/-! ### Clearing registers -/

/-- `ClearMessageState()` (42_finalizer.md R85): h, all sixteen bytes of buf, and off become zero. -/
def clearMessageState (m : State) : State := (m.setAccumulator ⟨0, 0, 0, 0, 0⟩).setBuffer (Vector.replicate 16 0) 0

/-- r, s and k zero, ST = 0 (43_lifecycle_commands.md R92). -/
def clearKeySchedule (m : State) : State :=
  (m.setKeySchedule ⟨0, 0, 0, 0, 0⟩ ⟨0, 0, 0, 0⟩ ⟨0, 0, 0, 0⟩).setLifecycle .uninitialized

end Sys2Proof.Machine
end

