-- ==== Sys2Proof/Machine/BlockAccumulator.lean ====
section
/-! DEFINITION. The block fold and UPDATE (spec/41_block_accumulator.md R70 to R76). -/

namespace Sys2Proof.Machine

/-- M26 = 0x03FFFFFF (00_scope.md R6) as a u32. -/
def limbMask : Word := 0x03FFFFFF

/-- M26 as a u64. -/
def limbMask64 : DWord := 0x03FFFFFF

/-- The five 64-bit partial sums `tp0` .. `tp4` (R73). -/
structure PartialSums where
  t0 : DWord
  t1 : DWord
  t2 : DWord
  t3 : DWord
  t4 : DWord
deriving DecidableEq, Repr

/-- The limbs `m0` .. `m4` of a block (R72), with the 2^128 term when the block is full. -/
def blockLimbs (full : Bool) (b : Nat → Byte) : Limbs :=
  let t0 := le32 b 0
  let t1 := le32 b 4
  let t2 := le32 b 8
  let t3 := le32 b 12
  { x0 := t0 &&& limbMask
    x1 := ((t0 >>> 26) ||| (t1 <<< 6)) &&& limbMask
    x2 := ((t1 >>> 20) ||| (t2 <<< 12)) &&& limbMask
    x3 := ((t2 >>> 14) ||| (t3 <<< 18)) &&& limbMask
    x4 := if full then 0x01000000 + (t3 >>> 8) else t3 >>> 8 }

/-- `h[i] <- h[i] +32 m_i` (R72). -/
def addLimbs (h m : Limbs) : Limbs :=
  ⟨h.x0 + m.x0, h.x1 + m.x1, h.x2 + m.x2, h.x3 + m.x3, h.x4 + m.x4⟩

/-- `AddBlock(full)` (R72). -/
def addBlock (full : Bool) (b : Nat → Byte) (h : Limbs) : Limbs := addLimbs h (blockLimbs full b)

/-- `*64`: both u32 operands widened, the product kept to 64 bits (R73). -/
def mul64 (x y : Word) : DWord := x.widen * y.widen

/-- `MulReduce()` (R73): five products per row, `s` where the index passes limb 4. -/
def mulReduce (h r : Limbs) (s : Multiples) : PartialSums :=
  { t0 := mul64 h.x0 r.x0 + mul64 h.x1 s.x4 + mul64 h.x2 s.x3 + mul64 h.x3 s.x2 + mul64 h.x4 s.x1
    t1 := mul64 h.x0 r.x1 + mul64 h.x1 r.x0 + mul64 h.x2 s.x4 + mul64 h.x3 s.x3 + mul64 h.x4 s.x2
    t2 := mul64 h.x0 r.x2 + mul64 h.x1 r.x1 + mul64 h.x2 r.x0 + mul64 h.x3 s.x4 + mul64 h.x4 s.x3
    t3 := mul64 h.x0 r.x3 + mul64 h.x1 r.x2 + mul64 h.x2 r.x1 + mul64 h.x3 r.x0 + mul64 h.x4 s.x4
    t4 := mul64 h.x0 r.x4 + mul64 h.x1 r.x3 + mul64 h.x2 r.x2 + mul64 h.x3 r.x1 + mul64 h.x4 r.x0 }

/-- The low 26 bits of a partial sum, as a limb (R74). -/
def lowLimb (t : DWord) : Word := (t &&& limbMask64).setWidth 32

/-- `CarryPropagate(tp)` (R74): 64-bit carries up the limbs, the final carry and its product with 5 in 32 bits. -/
def carryPropagate (tp : PartialSums) : Limbs :=
  let t1 := tp.t1 + (tp.t0 >>> 26)
  let t2 := tp.t2 + (t1 >>> 26)
  let t3 := tp.t3 + (t2 >>> 26)
  let t4 := tp.t4 + (t3 >>> 26)
  let c : Word := (t4 >>> 26).setWidth 32
  let h0 := lowLimb tp.t0 + c * 5
  { x0 := h0 &&& limbMask
    x1 := lowLimb t1 + (h0 >>> 26)
    x2 := lowLimb t2
    x3 := lowLimb t3
    x4 := lowLimb t4 }

/-- What `BlockFold(full)` makes of h (R71). -/
def foldBlock (full : Bool) (b : Nat → Byte) (r : Limbs) (s : Multiples) (h : Limbs) : Limbs :=
  carryPropagate (mulReduce (addBlock full b h) r s)

/-- buf[j]; there is no byte beyond buf[15], and no rule reads one. -/
def bufByte (buf : Vector Byte 16) (j : Nat) : Byte := buf[j]?.getD 0

/-- `BlockFold(full)` (R71): reads buf, h, r, s and writes only h. -/
def blockFold (full : Bool) (m : State) : State :=
  m.setAccumulator (foldBlock full (bufByte m.buf) m.r m.s m.h)

/-- `off` after one more byte is counted (R70, `off <- off + 1`); only for off ≤ 15. -/
def nextOff (off : Fin 17) : Fin 17 := off + 1

/-- `buf[off] <- b; off <- off + 1` (R70). -/
def bufferByte (m : State) (b : Byte) : State := m.setBuffer (m.buf.setIfInBounds m.off b) (nextOff m.off)

/-- As soon as sixteen bytes are buffered they are folded and off returns to 0; the bytes of buf stay (R70). -/
def foldIfFull (m : State) : State := if m.off = 16 then (blockFold true m).setBuffer m.buf 0 else m

/-- The body of UPDATE's loop for one byte (R70). -/
def absorbByte (m : State) (b : Byte) : State := foldIfFull (bufferByte m b)

/-- UPDATE's loop (R70): the bytes in ascending order. -/
def absorbBytes (m : State) (bytes : List Byte) : State := bytes.foldl absorbByte m

/-- `UPDATE A, L` (R70). -/
def execUpdate (a l : Int) (m : State) : Host.Outcome State Fault Refusal :=
  if m.st = .uninitialized then .next (raise .invalidState m)
  else if MessageWindowOutside a l m.om then .next (raise .invalidArgument m)
  else if m.off = 16 ∧ l ≠ 0 then .fault .bufferFull
  else .next (respond .ok 0 (absorbBytes m (m.om.readBytes a.toNat l.toNat)))

end Sys2Proof.Machine
end

