-- ==== Sys2Proof/Machine/Finalizer.lean ====
section
/-! DEFINITION. The Finalizer and FINAL (spec/42_finalizer.md R80 to R86). -/

namespace Sys2Proof.Machine

/-- `PadPartial()` (R81): 0x01 after the valid bytes, zeros in the rest. Called only with 1 ≤ off ≤ 15. -/
def padBuffer (buf : Vector Byte 16) (off : Nat) : Vector Byte 16 :=
  Vector.ofFn fun j => if j.val < off then buf[j] else if j.val = off then 1 else 0

/-- The last, partial block: padded, then folded without the 2^128 term (R80, R81). -/
def foldPartial (m : State) : State := blockFold false (m.setBuffer (padBuffer m.buf m.off) m.off)

/-- One carry pass (R82): h0 to h1 to h2 to h3 to h4, and the carry out of h4 times 5 into h0. -/
def carryPass (h : Limbs) : Limbs :=
  let h1 := h.x1 + (h.x0 >>> 26)
  let h2 := h.x2 + (h1 >>> 26)
  let h3 := h.x3 + (h2 >>> 26)
  let h4 := h.x4 + (h3 >>> 26)
  { x0 := (h.x0 &&& limbMask) + (h4 >>> 26) * 5
    x1 := h1 &&& limbMask
    x2 := h2 &&& limbMask
    x3 := h3 &&& limbMask
    x4 := h4 &&& limbMask }

/-- `FullCarry()` (R82): two passes. -/
def fullCarry (h : Limbs) : Limbs := carryPass (carryPass h)

/-- The tentative value `g = h + 5 − 2^130` (R83): carries up the limbs, then 2^26 off the top limb. -/
def tentative (h : Limbs) : Limbs :=
  let g0 := h.x0 + 5
  let g1 := h.x1 + (g0 >>> 26)
  let g2 := h.x2 + (g1 >>> 26)
  let g3 := h.x3 + (g2 >>> 26)
  let g4 := h.x4 + (g3 >>> 26)
  { x0 := g0 &&& limbMask
    x1 := g1 &&& limbMask
    x2 := g2 &&& limbMask
    x3 := g3 &&& limbMask
    x4 := g4 - 0x04000000 }

/-- `(h & ~m) | (g & m)` (R83). -/
def selectWord (m h g : Word) : Word := (h &&& ~~~m) ||| (g &&& m)

/-- `ReduceSelect()` (R83): the mask comes from the sign bit of g4. -/
def reduceSelect (h : Limbs) : Limbs :=
  let g := tentative h
  let m := (g.x4 >>> 31) - 1
  { x0 := selectWord m h.x0 g.x0
    x1 := selectWord m h.x1 g.x1
    x2 := selectWord m h.x2 g.x2
    x3 := selectWord m h.x3 g.x3
    x4 := selectWord m h.x4 g.x4 }

/-- The packing of R84: the five limbs as a 128-bit number of four words. -/
def packLimbs (h : Limbs) : Words4 :=
  { x0 := h.x0 ||| (h.x1 <<< 26)
    x1 := (h.x1 >>> 6) ||| (h.x2 <<< 20)
    x2 := (h.x2 >>> 12) ||| (h.x3 <<< 14)
    x3 := (h.x3 >>> 18) ||| (h.x4 <<< 8) }

/-- One word of R84's sum, 33 bits wide: two words and the carry in. -/
def addWithCarry (f k : Word) (carry : BitVec 33) : BitVec 33 := f.setWidth 33 + k.setWidth 33 + carry

/-- `TagAssemble()` (R84): the packed limbs plus k modulo 2^128, the carry out of bit 127 dropped. -/
def tagAssemble (h : Limbs) (k : Words4) : Words4 :=
  let f := packLimbs h
  let x0 := addWithCarry f.x0 k.x0 0
  let x1 := addWithCarry f.x1 k.x1 (x0 >>> 32)
  let x2 := addWithCarry f.x2 k.x2 (x1 >>> 32)
  let x3 := addWithCarry f.x3 k.x3 (x2 >>> 32)
  ⟨x0.setWidth 32, x1.setWidth 32, x2.setWidth 32, x3.setWidth 32⟩

/-- The state with the last partial block, if there is one, folded in (R80). -/
def flushPartial (m : State) : State := if m.off = 0 then m else foldPartial m

/-- The four tag words of a state (R80: flush, FullCarry, ReduceSelect, TagAssemble). -/
def tagWords (m : State) : Words4 := tagAssemble (reduceSelect (fullCarry (flushPartial m).h)) m.k

/-- `FINAL A` (R80). -/
def execFinal (a : Int) (m : State) : Host.Outcome State Fault Refusal :=
  if m.st = .uninitialized then .next (raise .invalidState m)
  else if TagOffsetMalformed a m.om then .next (raise .invalidArgument m)
  else if TagWindowShort a m.om then .next (raise .outputTooShort m)
  else if m.off = 16 then .fault .bufferFull
  else .next (respond .ok 0 (clearMessageState (m.setMemory (m.om.writeWords4 a.toNat (tagWords m)))))

end Sys2Proof.Machine
end

