-- ==== Sys2Proof/Machine/KeySchedule.lean ====
section
/-! DEFINITION. The Key Schedule and LOADKEY (spec/40_key_schedule.md R60 to R65). -/

namespace Sys2Proof.Machine

/-- The five clamp masks `mask_0` .. `mask_4` (R61). -/
def clampMasks : Limbs := ⟨0x03FFFFFF, 0x03FFFF03, 0x03FFC0FF, 0x03F03FFF, 0x000FFFFF⟩

/-- `Clamp` (R61): key bytes 0..15 to r[0..4]. -/
def clamp (key : Nat → Byte) : Limbs :=
  let t0 := le32 key 0
  let t1 := le32 key 4
  let t2 := le32 key 8
  let t3 := le32 key 12
  { x0 := t0 &&& clampMasks.x0
    x1 := ((t0 >>> 26) ||| (t1 <<< 6)) &&& clampMasks.x1
    x2 := ((t1 >>> 20) ||| (t2 <<< 12)) &&& clampMasks.x2
    x3 := ((t2 >>> 14) ||| (t3 <<< 18)) &&& clampMasks.x3
    x4 := (t3 >>> 8) &&& clampMasks.x4 }

/-- `s[i] <- 5 *32 r[i]` for i = 1..4 (R62). -/
def fiveTimes (r : Limbs) : Multiples := ⟨5 * r.x1, 5 * r.x2, 5 * r.x3, 5 * r.x4⟩

/-- `k[j] <- LE32(key, 16 + 4j)`, verbatim (R63). -/
def maskWords (key : Nat → Byte) : Words4 := ⟨le32 key 16, le32 key 20, le32 key 24, le32 key 28⟩

/-- `LoadKeySchedule(key)` (R61, R62, R63): writes r, s and k. -/
def loadKeySchedule (key : Nat → Byte) (m : State) : State :=
  m.setKeySchedule (clamp key) (fiveTimes (clamp key)) (maskWords key)

/-- `LOADKEY A, L` (R60). -/
def execLoadkey (a l : Int) (m : State) : Host.Outcome State Fault Refusal :=
  if m.st = .ready then .next (raise .invalidState m)
  else if KeyLengthWrong l then .next (raise .invalidKeyLength m)
  else if KeyWindowOutside a m.om then .next (raise .invalidArgument m)
  else
    let key := fun j => m.om.read (a.toNat + j)
    .next (respond .ok 0 ((clearMessageState (loadKeySchedule key m)).setLifecycle .ready))

end Sys2Proof.Machine
end

