-- ==== Sys2Proof/Machine/Lifecycle.lean ====
section
/-! DEFINITION. RESET, TAGLEN and DISPOSE (spec/43_lifecycle_commands.md R90 to R92). -/

namespace Sys2Proof.Machine

/-- `RESET` (R90): the message state is cleared, the key kept. -/
def execReset (m : State) : Host.Outcome State Fault Refusal := .next (respond .ok 0 (clearMessageState m))

/-- `TAGLEN` (R91): VAL = 16. -/
def execTaglen (m : State) : Host.Outcome State Fault Refusal := .next (respond .ok 16 m)

/-- `DISPOSE` (R92): every register of the engine zero, ST = 0; OM is not cleared. -/
def execDispose (m : State) : Host.Outcome State Fault Refusal :=
  .next (respond .ok 0 (clearKeySchedule (clearMessageState m)))

end Sys2Proof.Machine
end

