-- ==== Sys2Proof/Machine/Dispatch.lean ====
section
/-! DEFINITION. One arm per constructor of Instr (spec/30_encoding.md R53). -/

namespace Sys2Proof.Machine

def exec (i : Instr) (s : State) : Host.Outcome State Fault Refusal :=
  match i with
  | .loadkey a l => Sys2Proof.Machine.execLoadkey a l s
  | .update a l => Sys2Proof.Machine.execUpdate a l s
  | .final a => Sys2Proof.Machine.execFinal a s
  | .reset => Sys2Proof.Machine.execReset s
  | .taglen => Sys2Proof.Machine.execTaglen s
  | .dispose => Sys2Proof.Machine.execDispose s

end Sys2Proof.Machine
end

