-- ==== Sys2Proof/Machine/HostPort.lean ====
section
/-! DEFINITION. What each action of the host does: a command word on the command port (spec/30_encoding.md R50 to R56), an access to
the operand memory (spec/20_memory.md R31), an access to the register port (spec/10_state.md R18), hardware reset
(spec/70_reset_and_hazards.md R120). -/

namespace Sys2Proof.Machine

/-- The host is answered. -/
def observe (o : Observation) (m : State) : State := { m with observed := m.observed ++ [o] }

/-- The engine accepts a command word: it decodes, then runs the command, or completes with IllegalCommand (R54, R56, R106). -/
def acceptCommand (cw : CommandWord) (m : State) : Host.Outcome State Fault Refusal :=
  match decode cw with
  | .command i => exec i m
  | .illegal _ => .next (illegalCommand m)

/-- `HostWrite(a, n, bytes)` (20_memory.md R31); outside OM it is refused (93_implementation_defined.md U2). -/
def hostWrite (a : Int) (bytes : List Byte) (m : State) : Host.Outcome State Fault Refusal :=
  if HostWindowOutside a bytes.length m.om then .refused .hostAccessOutside
  else .next (m.setMemory (m.om.writeBytes a.toNat bytes))

/-- `HostRead(a, n)` (20_memory.md R31); outside OM it is refused (93_implementation_defined.md U2). -/
def hostRead (a : Int) (n : Nat) (m : State) : Host.Outcome State Fault Refusal :=
  if HostWindowOutside a n m.om then .refused .hostAccessOutside
  else .next (observe (.memory (m.om.readBytes a.toNat n)) m)

/-- The value of a register of the register port: number 0 is STATUS, any other number reads 0 (10_state.md R18). -/
def registerValue (number : Nat) (m : State) : Word := if number = 0 then m.status else 0

/-- A host read of the register port, without a side effect on the engine (10_state.md R18). -/
def readRegister (number : Nat) (m : State) : Host.Outcome State Fault Refusal :=
  .next (observe (.register (registerValue number m)) m)

/-- A host write of the register port is ignored, whatever the number (10_state.md R18). -/
def writeRegister (_number : Nat) (_value : Word) (m : State) : Host.Outcome State Fault Refusal := .next m

/-- Hardware reset (70_reset_and_hazards.md R120): every register as R21 gives it, OM with any contents (U1), no response; OM_BYTES
does not change. The host's further actions and its record are the host's and stay. -/
def hardwareReset (contents : List Host.Cell) (m : State) : Host.Outcome State Fault Refusal :=
  .next (State.afterReset (Memory.ofCells m.om.size contents) m.commandPort m.observed)

/-- One action of the host. -/
def perform (act : HostAction) (m : State) : Host.Outcome State Fault Refusal :=
  match act with
  | .command cw => acceptCommand cw m
  | .hostWrite a bytes => hostWrite a bytes m
  | .hostRead a n => hostRead a n m
  | .readRegister number => readRegister number m
  | .writeRegister number value => writeRegister number value m
  | .hardwareReset contents => hardwareReset contents m

/-- The oldest pending action is taken off the list and performed; with none pending the engine waits (70_reset_and_hazards.md R120,
R128: "the engine waits for a command"). -/
def performNext (m : State) : Host.Outcome State Fault Refusal :=
  match m.commandPort with
  | [] => .next m
  | act :: rest => perform act { m with commandPort := rest }

/-- A command word presented as the very next action. -/
def presentCommand (cw : CommandWord) (m : State) : State := { m with commandPort := .command cw :: m.commandPort }

end Sys2Proof.Machine
end

