-- ==== Sys2Proof/Machine/Step.lean ====
section
/-! DEFINITION. One step of the machine: the next action of the host, whole (spec/20_memory.md R37: commands are atomic and totally
ordered with host accesses). -/

namespace Sys2Proof.Machine

/-- One step. -/
def step (s : State) : Host.Outcome State Fault Refusal := performNext s

/-- The instruction whose bits are `w` (R50's numbering, the bits above `nbits` zero) presented on the command port as the very next
action: this machine fetches nothing from memory (20_memory.md R39; log 3). -/
def State.withFetchWord (s : State) (nbits w : Nat) : State := presentCommand (BitVec.ofNat 96 (w % 2 ^ nbits)) s

end Sys2Proof.Machine
end

