-- ==== Sys2Proof/Safety.lean ====
section
/-! DEFINITION. The terms claims use: the numbers that limbs, words and byte lists stand for, the bounds of every reachable state
(spec/10_state.md R22), a safe step, a run of UPDATEs, and Poly1305 as one function of key and message (spec/42_finalizer.md R86). -/

namespace Sys2Proof

/-- The bytes of OM that a command reads when it succeeds (20_memory.md R32). -/
def Instr.Reads : Instr → Nat → Prop
  | .loadkey a _, x => a ≤ x ∧ (x : Int) < a + 32
  | .update a l, x => a ≤ x ∧ (x : Int) < a + l
  | .final _, _ => False
  | .reset, _ => False
  | .taglen, _ => False
  | .dispose, _ => False

/-- The bytes of OM that a command writes when it succeeds (20_memory.md R32). -/
def Instr.Writes : Instr → Nat → Prop
  | .final a, x => a ≤ x ∧ (x : Int) < a + 16
  | .loadkey _ _, _ => False
  | .update _ _, _ => False
  | .reset, _ => False
  | .taglen, _ => False
  | .dispose, _ => False

end Sys2Proof

namespace Sys2Proof.Machine

/-! ### Numbers -/

/-- `val(x)` of a limb vector (00_scope.md §4). -/
def Limbs.val (x : Limbs) : Nat :=
  x.x0.toNat + x.x1.toNat * 2 ^ 26 + x.x2.toNat * 2 ^ 52 + x.x3.toNat * 2 ^ 78 + x.x4.toNat * 2 ^ 104

/-- `val(tp)` of the partial sums (41_block_accumulator.md R73). -/
def PartialSums.val (t : PartialSums) : Nat :=
  t.t0.toNat + t.t1.toNat * 2 ^ 26 + t.t2.toNat * 2 ^ 52 + t.t3.toNat * 2 ^ 78 + t.t4.toNat * 2 ^ 104

/-- The 128-bit number of four words, the first the least significant (40_key_schedule.md R63; 42_finalizer.md R84). -/
def Words4.val (w : Words4) : Nat :=
  w.x0.toNat + w.x1.toNat * 2 ^ 32 + w.x2.toNat * 2 ^ 64 + w.x3.toNat * 2 ^ 96

/-- A list of bytes as a little-endian integer (20_memory.md R34). -/
def leNat : List Byte → Nat
  | [] => 0
  | b :: rest => b.toNat + 2 ^ 8 * leNat rest

/-- The n bytes, little-endian, of a number (20_memory.md R34). -/
def leBytes : Nat → Nat → List Byte
  | 0, _ => []
  | n + 1, v => BitVec.ofNat 8 v :: leBytes n (v / 2 ^ 8)

/-- The first n bytes of a byte array, as a list. -/
def firstBytes (b : Nat → Byte) (n : Nat) : List Byte := (List.range n).map b

/-! ### Bounds of every reachable state (10_state.md R12, R13, R22) -/

/-- No limb of r has a bit its clamp mask clears (R12: `r[i] & ~mask_i = 0`). -/
def KeyClamped (r : Limbs) : Prop :=
  r.x0 &&& ~~~clampMasks.x0 = 0 ∧ r.x1 &&& ~~~clampMasks.x1 = 0 ∧ r.x2 &&& ~~~clampMasks.x2 = 0 ∧
  r.x3 &&& ~~~clampMasks.x3 = 0 ∧ r.x4 &&& ~~~clampMasks.x4 = 0

/-- s[i] = 5·r[i] as integers (R13). -/
def MultiplesExact (r : Limbs) (s : Multiples) : Prop :=
  s.x1.toNat = 5 * r.x1.toNat ∧ s.x2.toNat = 5 * r.x2.toNat ∧ s.x3.toNat = 5 * r.x3.toNat ∧ s.x4.toNat = 5 * r.x4.toNat

/-- The accumulator's bounds between commands (R22, 2). -/
def AccumulatorBounded (h : Limbs) : Prop :=
  h.x0.toNat ≤ 0x03FFFFFF ∧ h.x1.toNat ≤ 0x04000025 ∧ h.x2.toNat ≤ 0x03FFFFFF ∧ h.x3.toNat ≤ 0x03FFFFFF ∧ h.x4.toNat ≤ 0x03FFFFFF

/-- Every limb fits 26 bits (42_finalizer.md R82). -/
def FullyCarried (h : Limbs) : Prop :=
  h.x0.toNat ≤ 0x03FFFFFF ∧ h.x1.toNat ≤ 0x03FFFFFF ∧ h.x2.toNat ≤ 0x03FFFFFF ∧ h.x3.toNat ≤ 0x03FFFFFF ∧ h.x4.toNat ≤ 0x03FFFFFF

/-- h, buf and off as ClearMessageState leaves them (42_finalizer.md R85). -/
def State.MessageCleared (m : State) : Prop :=
  m.h = ⟨0, 0, 0, 0, 0⟩ ∧ m.buf = Vector.replicate 16 0 ∧ m.off = 0

/-- r, s and k all zero. -/
def State.KeyCleared (m : State) : Prop :=
  m.r = ⟨0, 0, 0, 0, 0⟩ ∧ m.s = ⟨0, 0, 0, 0⟩ ∧ m.k = ⟨0, 0, 0, 0⟩

/-- STATUS as some response leaves it: RDY is ST, bits 31:17 are zero, CODE is 0..5, VAL is 0 or, on success, 16 (R18; 60 R100). -/
def State.StatusConsistent (m : State) : Prop :=
  statusRdy m.status = m.st.bit ∧ statusReserved m.status = 0 ∧ (statusCode m.status).toNat ≤ 5 ∧
  (statusVal m.status = 0 ∨ (statusVal m.status = 16 ∧ statusCode m.status = 0))

/-- What holds in every reachable state (R22; R17, R18; and the canonical form and size of OM: R7, R30). -/
structure State.Inv (m : State) : Prop where
  clamped : KeyClamped m.r
  multiples : MultiplesExact m.r m.s
  accumulator : AccumulatorBounded m.h
  offset : m.off.val ≤ 15
  unkeyed : m.st = .uninitialized → m.KeyCleared ∧ m.MessageCleared
  statusWord : m.StatusConsistent
  memory : m.om.wf
  omBytes : Config.minOmBytes ≤ m.om.size ∧ m.om.size ≤ Config.maxOmBytes

/-- A step that does not fault. -/
def SafeStep (m : State) : Prop := ∀ f, step m ≠ .fault f

/-! ### Answers -/

/-- The state a command that fails with `code` leaves: the state before, with STATUS replaced and the host answered (60 R107). -/
def failedWith (code : Byte) (m : State) : State :=
  { m with status := responseWord code 0 m.st.bit, observed := m.observed ++ [.response (responseWord code 0 m.st.bit)] }

/-! ### Poly1305 as one function (42_finalizer.md R86) -/

/-- The i-th 16-byte block of a message; the last may be shorter. -/
def messageBlock (msg : List Byte) (i : Nat) : List Byte := (msg.drop (16 * i)).take 16

/-- `n_blk`: the block's bytes as a little-endian integer plus 2^(8·length). -/
def blockNumber (block : List Byte) : Nat := leNat block + 2 ^ (8 * block.length)

/-- The loop of R86: `a = ((a + n_blk) · R) mod P` over the blocks in order, from a = 0. -/
def polyAccumulate (R : Nat) (msg : List Byte) : Nat :=
  (List.range ((msg.length + 15) / 16)).foldl (fun a i => ((a + blockNumber (messageBlock msg i)) * R) % Config.modulus) 0

/-- The 128-bit clamp (40_key_schedule.md R64). -/
def clampNumber (R : Nat) : Nat := R &&& 0x0FFFFFFC0FFFFFFC0FFFFFFC0FFFFFFF

/-- The 16 tag bytes of a message under a 32-byte key (R86). -/
def poly1305 (key msg : List Byte) : List Byte :=
  leBytes 16 ((polyAccumulate (clampNumber (leNat (key.take 16))) msg + leNat ((key.drop 16).take 16)) % 2 ^ 128)

/-! ### A message given in chunks -/

/-- One chunk of a message: OM as the host has left it by then, and the operands of the UPDATE. -/
structure Chunk where
  om : Memory
  a : Int
  l : Int
deriving DecidableEq, Repr

/-- The chunk's window lies inside its OM. -/
def Chunk.Inside (c : Chunk) : Prop := 0 ≤ c.a ∧ 0 ≤ c.l ∧ c.a + c.l ≤ c.om.size

/-- The message bytes of a chunk. -/
def Chunk.bytes (c : Chunk) : List Byte := c.om.readBytes c.a.toNat c.l.toNat

/-- The UPDATEs of the chunks in order, the host having put each chunk's OM in place before its UPDATE; none as soon as one of them
does not answer a next state with CODE 0. -/
def runUpdates : List Chunk → State → Option State
  | [], m => some m
  | c :: rest, m =>
    match exec (.update c.a c.l) { m with om := c.om } with
    | .next t => if statusCode t.status = 0 then runUpdates rest t else none
    | .fault _ => none
    | .refused _ => none

end Sys2Proof.Machine
end

