-- ==== Sys2Proof/Certificates/Slice0/Obligations.lean ====
section
/-! DEFINITION. The statements for the provers. Each docstring names the rule of spec/ it formalises or rests on. -/

open Sys2Proof Sys2Proof.Machine

/-! ### Encoding (spec/30_encoding.md) -/

/-- 95_test_vectors.md V53 and V60 to V75: these raw words decode as the spec says. -/
def Obligations.SpecWordsDecode : Prop :=
  decode 0x00000020_00000000_00000001 = .command (.loadkey 0 32) ∧
  decode 0x00000022_00000030_00000002 = .command (.update 48 34) ∧
  decode 0xffffffff_ffffffff_00000002 = .command (.update (-1) (-1)) ∧
  decode 0x00000000_00000080_00000003 = .command (.final 128) ∧
  decode 0x00000000_fffffff0_00000003 = .command (.final (-16)) ∧
  decode 0x00000000_00000000_00000004 = .command .reset ∧
  decode 0x00000000_00000000_00000005 = .command .taglen ∧
  decode 0x00000000_00000000_00000006 = .command .dispose ∧
  decode 0x00000000_00000000_00000000 = .illegal .unknownOpcode ∧
  decode 0x00000000_00000000_00000007 = .illegal .unknownOpcode ∧
  decode 0x00000000_00000000_000000ff = .illegal .unknownOpcode ∧
  decode 0x00000020_00000000_00000101 = .illegal .reservedNotZero ∧
  decode 0x00000000_00000000_80000004 = .illegal .reservedNotZero ∧
  decode 0x00000001_00000000_00000003 = .illegal .lengthNotZero ∧
  decode 0x00000000_00000001_00000004 = .illegal .offsetNotZero ∧
  decode 0x00000010_00000000_00000005 = .illegal .lengthNotZero ∧
  decode 0x00000000_ffffffff_00000006 = .illegal .offsetNotZero

/-- R50 to R53, R57: decoding the word of a command gives the command back, for every immediate of R52's range. -/
def Obligations.DecodeEncodeRoundTrip : Prop :=
  ∀ i : Instr, WellFormed i = true → decode (encode i) = .command i

/-- R50 to R56: a word that decodes to a command is the one word of that command, and its immediates are in R52's range. -/
def Obligations.EncodeDecodeRoundTrip : Prop :=
  ∀ (cw : CommandWord) (i : Instr), decode cw = .command i → WellFormed i = true ∧ encode i = cw

/-- R53: a word selects a row when `CW & mask = match`; it decodes to a command exactly when it selects that command's row; no word
selects two rows. -/
def Obligations.OpcodeRowSelection : Prop :=
  opcodeTable.map OpcodeRow.mnemonic = ["LOADKEY", "UPDATE", "FINAL", "RESET", "TAGLEN", "DISPOSE"] ∧
  opcodeTable.map OpcodeRow.mask = [0x00000000_00000000_FFFFFFFF, 0x00000000_00000000_FFFFFFFF, 0xFFFFFFFF_00000000_FFFFFFFF,
    0xFFFFFFFF_FFFFFFFF_FFFFFFFF, 0xFFFFFFFF_FFFFFFFF_FFFFFFFF, 0xFFFFFFFF_FFFFFFFF_FFFFFFFF] ∧
  opcodeTable.map OpcodeRow.pattern = [1, 2, 3, 4, 5, 6] ∧
  ∀ cw : CommandWord,
    (∀ row ∈ opcodeTable, cw &&& row.mask = row.pattern ↔ ∃ i, decode cw = .command i ∧ i.mnemonic = row.mnemonic) ∧
    (∀ row₁ ∈ opcodeTable, ∀ row₂ ∈ opcodeTable,
      cw &&& row₁.mask = row₁.pattern → cw &&& row₂.mask = row₂.pattern → row₁ = row₂)

/-- R54: exactly these words are illegal, and each completes with code 5 in either lifecycle state and changes only STATUS. -/
def Obligations.IllegalWordsChangeOnlyStatus : Prop :=
  ∀ cw : CommandWord,
    ((∃ why, decode cw = .illegal why) ↔
      cw.extractLsb' 0 8 = (0x00 : BitVec 8) ∨ (0x07 : Nat) ≤ (cw.extractLsb' 0 8).toNat ∨ cw.extractLsb' 8 24 ≠ (0 : BitVec 24) ∨
      (cw.extractLsb' 0 8 = (0x03 : BitVec 8) ∧ cw.extractLsb' 64 32 ≠ (0 : BitVec 32)) ∨
      (((0x04 : Nat) ≤ (cw.extractLsb' 0 8).toNat ∧ (cw.extractLsb' 0 8).toNat ≤ 0x06) ∧
        (cw.extractLsb' 32 32 ≠ (0 : BitVec 32) ∨ cw.extractLsb' 64 32 ≠ (0 : BitVec 32)))) ∧
    ∀ (why : IllegalWord) (m : State), decode cw = .illegal why →
      acceptCommand cw m = .next
        { m with status := responseWord 5 0 m.st.bit, observed := m.observed ++ [.response (responseWord 5 0 m.st.bit)] }

/-- R52: the immediates of a command are its fields read as two's-complement 32-bit integers. -/
def Obligations.ImmediatesAreSignedFields : Prop :=
  ∀ (cw : CommandWord) (a l : Int),
    (decode cw = .command (.loadkey a l) → a = (cw.extractLsb' 32 32).toInt ∧ l = (cw.extractLsb' 64 32).toInt) ∧
    (decode cw = .command (.update a l) → a = (cw.extractLsb' 32 32).toInt ∧ l = (cw.extractLsb' 64 32).toInt) ∧
    (decode cw = .command (.final a) → a = (cw.extractLsb' 32 32).toInt)

/-! ### The step (spec/20_memory.md R37, spec/70_reset_and_hazards.md R128) -/

/-- R37, R128: a step performs the host's oldest pending action, whole, and takes it off the list; with none pending it changes nothing.
That the actions stand in State as a list is the model's choice (log 3). -/
def Obligations.StepPerformsOldestAction : Prop :=
  ∀ (m : State) (act : HostAction) (rest : List HostAction),
    (m.commandPort = [] → step m = .next m) ∧
    (m.commandPort = act :: rest → step m = perform act { m with commandPort := rest })

/-- R54, R56: when the oldest pending action is a command word that decodes to i, a step is exec of i on the state with that action taken
off the list; when it is an illegal word, the step completes with IllegalCommand. -/
def Obligations.StepRunsDecodedCommand : Prop :=
  ∀ (m : State) (cw : CommandWord) (rest : List HostAction), m.commandPort = .command cw :: rest →
    (∀ i, decode cw = .command i → step m = exec i { m with commandPort := rest }) ∧
    (∀ why, decode cw = .illegal why → step m = .next (failedWith 5 { m with commandPort := rest }))

/-- R39, R50: the word of a well-formed command, presented as the very next action, is run by the next step on the state as it was. -/
def Obligations.PresentedWordRunsNext : Prop :=
  ∀ (i : Instr) (m : State), WellFormed i = true →
    step (m.withFetchWord 96 (encode i).toNat) = exec i m ∧ decodeTableWord 96 (encode i).toNat = some i

/-! ### Reset and the invariant (spec/10_state.md R21, R22; spec/70_reset_and_hazards.md R120) -/

/-- R21, R120: hardware reset zeroes every register and STATUS, gives no response, leaves OM_BYTES, and OM may hold any bytes
afterwards; it differs from DISPOSE only in OM and the response; the engine then waits; `State.reset` has the same registers. (That the
host's list and record stay is the model's choice, log 3.) -/
def Obligations.HardwareResetClearsRegisters : Prop :=
  (∀ (m : State) (contents : List Host.Cell), ∃ t, perform (.hardwareReset contents) m = .next t ∧
    t.r = ⟨0, 0, 0, 0, 0⟩ ∧ t.s = ⟨0, 0, 0, 0⟩ ∧ t.k = ⟨0, 0, 0, 0⟩ ∧ t.h = ⟨0, 0, 0, 0, 0⟩ ∧ t.buf = Vector.replicate 16 0 ∧
    t.off = 0 ∧ t.st = .uninitialized ∧ t.status = 0 ∧ t.om.size = m.om.size ∧ t.observed = m.observed ∧
    t.commandPort = m.commandPort ∧ (t.commandPort = [] → step t = .next t) ∧
    ∃ d, exec .dispose m = .next d ∧ t = { d with om := t.om, observed := m.observed }) ∧
  (∀ (m : State) (f : Nat → Byte), ∃ contents t, perform (.hardwareReset contents) m = .next t ∧
    ∀ x, x < m.om.size → t.om.read x = f x) ∧
  (State.reset.r = ⟨0, 0, 0, 0, 0⟩ ∧ State.reset.s = ⟨0, 0, 0, 0⟩ ∧ State.reset.k = ⟨0, 0, 0, 0⟩ ∧
    State.reset.h = ⟨0, 0, 0, 0, 0⟩ ∧ State.reset.buf = Vector.replicate 16 0 ∧ State.reset.off = 0 ∧
    State.reset.st = .uninitialized ∧ State.reset.status = 0)

/-- R22: the invariant holds of `State.reset`, and of the reset state with any canonical OM of a size R7 admits. -/
def Obligations.ResetSatisfiesBounds : Prop :=
  State.reset.Inv ∧
  ∀ (om : Memory) (port : List HostAction) (obs : List Observation), om.wf → Config.minOmBytes ≤ om.size →
    om.size ≤ Config.maxOmBytes → (State.afterReset om port obs).Inv

/-- R22, R17, R18: every step, whatever the host does, keeps the bounds of r, s and h, off ≤ 15, the zeros of an unkeyed engine, the form
of STATUS, the canonical form of OM and its size. -/
def Obligations.StepKeepsReachableBounds : Prop :=
  ∀ m t : State, m.Inv → step m = .next t → t.Inv

/-- R7, R10: OM_BYTES is no state; no step changes it. -/
def Obligations.StepKeepsOmBytes : Prop :=
  ∀ m t : State, step m = .next t → t.om.size = m.om.size

/-- R107, R108, R16: within the bounds no step faults; every one of the model's faults lies outside the reachable states (log 5). -/
def Obligations.BoundedStatesNeverFault : Prop :=
  ∀ m : State, m.Inv → SafeStep m

/-- Log 5, the model's own: a command faults exactly when it would need a byte buf[16]: UPDATE of at least one byte, and FINAL, with good
operands, in a Ready state that rests at off = 16, which R16 says does not exist between commands. -/
def Obligations.OnlyRestingAtSixteenFaults : Prop :=
  ∀ (i : Instr) (m : State), exec i m = .fault .bufferFull ↔
    m.st = .ready ∧ m.off = 16 ∧
      ((∃ a l, i = .update a l ∧ 0 ≤ a ∧ 0 < l ∧ a + l ≤ m.om.size) ∨ ∃ a, i = .final a ∧ 0 ≤ a ∧ a + 16 ≤ m.om.size)

/-- R31, 93_implementation_defined.md U2: a step is refused exactly when the oldest pending action is a host access outside OM. -/
def Obligations.OnlyOutsideHostAccessesAreRefused : Prop :=
  ∀ m : State, (∃ e, step m = .refused e) ↔
    ∃ rest, (∃ a bytes, m.commandPort = .hostWrite a bytes :: rest ∧ (a < 0 ∨ a + (bytes.length : Int) > m.om.size)) ∨
      (∃ a n, m.commandPort = .hostRead a n :: rest ∧ (a < 0 ∨ a + (n : Int) > m.om.size))

/-! ### Responses and failures (spec/30_encoding.md R55, spec/60_exceptions.md) -/

/-- R55: every command word, legal or not, is answered with one response word, which is left in STATUS: CODE, VAL (16 for TAGLEN, else 0),
RDY = ST after the command, zeros. -/
def Obligations.EveryCommandAnswersInStatus : Prop :=
  ∀ (cw : CommandWord) (m : State), m.off.val ≤ 15 →
    ∃ t, acceptCommand cw m = .next t ∧ t.observed = m.observed ++ [.response t.status] ∧
      (t.status.extractLsb' 0 8).toNat ≤ 5 ∧
      t.status.extractLsb' 8 8 = (if decode cw = .command .taglen then 16 else 0 : BitVec 8) ∧
      t.status.extractLsb' 16 1 = (if t.st = .ready then 1 else 0 : BitVec 1) ∧
      t.status.extractLsb' 17 15 = (0 : BitVec 15)

/-- R107: a command that ends with a non-zero code writes STATUS (VAL 0, RDY the unchanged ST) and nothing else; it reads no byte of OM, for
it does the same whatever OM of that size holds. -/
def Obligations.FailureChangesOnlyStatus : Prop :=
  ∀ (cw : CommandWord) (m t : State), acceptCommand cw m = .next t → t.status.extractLsb' 0 8 ≠ (0 : BitVec 8) →
    t = { m with status := t.status, observed := m.observed ++ [.response t.status] } ∧
    t.status.extractLsb' 8 8 = (0 : BitVec 8) ∧ t.status.extractLsb' 16 1 = m.st.bit ∧
    ∀ om, om.size = m.om.size → acceptCommand cw { m with om := om } = .next { t with om := om }

/-- R108: the command after a failed one does what it would have done had the failed one never been issued, and the failed word, issued
again, fails the same way. -/
def Obligations.FailedCommandLeavesNoTrace : Prop :=
  ∀ (cw : CommandWord) (m t : State), acceptCommand cw m = .next t → t.status.extractLsb' 0 8 ≠ (0 : BitVec 8) →
    (∀ (cw' : CommandWord) (v : State), acceptCommand cw' m = .next v →
      ∃ u, acceptCommand cw' t = .next u ∧ u = { v with observed := u.observed }) ∧
    ∃ u, acceptCommand cw t = .next u ∧ u.status = t.status

/-- R101 to R106: which code a command word completes with, the checks in their fixed order: decode, lifecycle, arguments, over the
unbounded integers; and a non-zero code means that nothing but STATUS was written. -/
def Obligations.ChecksInFixedOrder : Prop :=
  ∀ (cw : CommandWord) (m : State), m.off.val ≤ 15 →
    let code : Byte :=
      match decode cw with
      | .illegal _ => 5
      | .command (.loadkey a l) =>
        if m.st = .ready then 4 else if l ≠ 32 then 1 else if a < 0 ∨ a + 32 > m.om.size then 2 else 0
      | .command (.update a l) =>
        if m.st = .uninitialized then 4 else if a < 0 ∨ l < 0 ∨ a + l > m.om.size then 2 else 0
      | .command (.final a) =>
        if m.st = .uninitialized then 4 else if a < 0 ∨ a > m.om.size then 2 else if a + 16 > m.om.size then 3 else 0
      | .command .reset => 0
      | .command .taglen => 0
      | .command .dispose => 0
    ∃ t, acceptCommand cw m = .next t ∧ t.status.extractLsb' 0 8 = code ∧ (code ≠ 0 → t = failedWith code m)

/-- R93: the transition table of the lifecycle, row by row; and the only edges between the two states. -/
def Obligations.LifecycleTransitions : Prop :=
  (∀ m t : State,
    (∀ a l, exec (.loadkey a l) m = .next t →
      (m.st = .ready → t = failedWith 4 m) ∧
      (m.st = .uninitialized → l = 32 → 0 ≤ a → a + 32 ≤ m.om.size → t.st = .ready ∧ statusCode t.status = 0) ∧
      (m.st = .uninitialized → (l ≠ 32 ∨ a < 0 ∨ a + 32 > m.om.size) →
        t.st = .uninitialized ∧ (statusCode t.status = 1 ∨ statusCode t.status = 2))) ∧
    (∀ a l, exec (.update a l) m = .next t →
      (m.st = .uninitialized → t.st = .uninitialized ∧ statusCode t.status = 4) ∧
      (m.st = .ready → t.st = .ready ∧ (statusCode t.status = 0 ∨ statusCode t.status = 2))) ∧
    (∀ a, exec (.final a) m = .next t →
      (m.st = .uninitialized → t.st = .uninitialized ∧ statusCode t.status = 4) ∧
      (m.st = .ready → t.st = .ready ∧ (statusCode t.status = 0 ∨ statusCode t.status = 2 ∨ statusCode t.status = 3))) ∧
    (exec .reset m = .next t → t.st = m.st ∧ statusCode t.status = 0) ∧
    (exec .taglen m = .next t → t.st = m.st ∧ statusCode t.status = 0) ∧
    (exec .dispose m = .next t → t.st = .uninitialized ∧ statusCode t.status = 0) ∧
    (∀ cw why, decode cw = .illegal why → acceptCommand cw m = .next t → t.st = m.st ∧ statusCode t.status = 5) ∧
    (∀ contents, perform (.hardwareReset contents) m = .next t → t.st = .uninitialized)) ∧
  ∀ (act : HostAction) (m t : State), perform act m = .next t →
    (m.st = .uninitialized → t.st = .ready →
      ∃ cw a l, act = .command cw ∧ decode cw = .command (.loadkey a l) ∧ statusCode t.status = 0) ∧
    (m.st = .ready → t.st = .uninitialized →
      (∃ cw, act = .command cw ∧ decode cw = .command .dispose) ∨ ∃ contents, act = .hardwareReset contents)

/-- R18: a register read answers STATUS for number 0 and 0 for any other and has no side effect; a register write is ignored. -/
def Obligations.RegisterPortIsReadOnly : Prop :=
  ∀ (n : Nat) (v : Word) (m : State),
    perform (.readRegister 0) m = .next { m with observed := m.observed ++ [.register m.status] } ∧
    (n ≠ 0 → perform (.readRegister n) m = .next { m with observed := m.observed ++ [.register 0] }) ∧
    perform (.writeRegister n v) m = .next m

/-- R23: two engines that differ only in r, s, k, h, buf and off answer every command alike, and leave the same OM but for the 16 bytes a
FINAL writes. -/
def Obligations.SecretsHaveNoReadPath : Prop :=
  ∀ (i : Instr) (m₁ m₂ : State), m₁.off.val ≤ 15 → m₂.off.val ≤ 15 → m₁.st = m₂.st → m₁.om = m₂.om →
    m₁.observed = m₂.observed →
    ∃ t₁ t₂, exec i m₁ = .next t₁ ∧ exec i m₂ = .next t₂ ∧ t₁.status = t₂.status ∧ t₁.observed = t₂.observed ∧ t₁.st = t₂.st ∧
      t₁.om.size = t₂.om.size ∧ ∀ x, ¬ i.Writes x → t₁.om.read x = t₂.om.read x

/-! ### The key schedule (spec/40_key_schedule.md) -/

/-- R60 to R63: LOADKEY on every lifecycle state and operands: its three failures in their order, and the registers it leaves, each word
`t_j` the little-endian number of four bytes of OM. -/
def Obligations.LoadkeyLoadsKeySchedule : Prop :=
  ∀ (a l : Int) (m : State),
    (m.st = .ready → exec (.loadkey a l) m = .next (failedWith 4 m)) ∧
    (m.st = .uninitialized → l ≠ 32 → exec (.loadkey a l) m = .next (failedWith 1 m)) ∧
    (m.st = .uninitialized → l = 32 → (a < 0 ∨ a + 32 > m.om.size) → exec (.loadkey a l) m = .next (failedWith 2 m)) ∧
    (m.st = .uninitialized → l = 32 → 0 ≤ a → a + 32 ≤ m.om.size →
      let w : Nat → Word := fun i => BitVec.ofNat 32 (leNat (m.om.readBytes (a.toNat + i) 4))
      ∃ t, exec (.loadkey a l) m = .next t ∧
        t.r.x0 = w 0 &&& 0x03FFFFFF ∧
        t.r.x1 = ((w 0 >>> 26) ||| (w 4 <<< 6)) &&& 0x03FFFF03 ∧
        t.r.x2 = ((w 4 >>> 20) ||| (w 8 <<< 12)) &&& 0x03FFC0FF ∧
        t.r.x3 = ((w 8 >>> 14) ||| (w 12 <<< 18)) &&& 0x03F03FFF ∧
        t.r.x4 = (w 12 >>> 8) &&& 0x000FFFFF ∧
        t.s = ⟨5 * t.r.x1, 5 * t.r.x2, 5 * t.r.x3, 5 * t.r.x4⟩ ∧
        t.k = ⟨w 16, w 20, w 24, w 28⟩ ∧ t.k.val = leNat (m.om.readBytes (a.toNat + 16) 16) ∧
        t = { m with r := t.r, s := t.s, k := t.k, h := ⟨0, 0, 0, 0, 0⟩, buf := Vector.replicate 16 0, off := 0, st := .ready,
                     status := 0x00010000, observed := m.observed ++ [.response 0x00010000] })

/-- R64: after LOADKEY, val(r) is the first key half with the 128-bit clamp, and r[i] is bits 26i+25 .. 26i of it. -/
def Obligations.KeyClampIsOneMask : Prop :=
  ∀ (a : Int) (m : State), m.st = .uninitialized → 0 ≤ a → a + 32 ≤ m.om.size →
    let v := leNat (m.om.readBytes a.toNat 16) &&& 0x0FFFFFFC0FFFFFFC0FFFFFFC0FFFFFFF
    ∃ t, exec (.loadkey a 32) m = .next t ∧ t.r.val = v ∧
      t.r.x0.toNat = v % 2 ^ 26 ∧ t.r.x1.toNat = v / 2 ^ 26 % 2 ^ 26 ∧ t.r.x2.toNat = v / 2 ^ 52 % 2 ^ 26 ∧
      t.r.x3.toNat = v / 2 ^ 78 % 2 ^ 26 ∧ t.r.x4.toNat = v / 2 ^ 104 % 2 ^ 26

/-- R12, R13, R14: the bounds of r and s after LOADKEY, s[i] = 5·r[i] as integers, and K the second key half as it is. -/
def Obligations.KeyScheduleBoundsAfterLoadkey : Prop :=
  ∀ (a : Int) (m : State), m.st = .uninitialized → 0 ≤ a → a + 32 ≤ m.om.size →
    ∃ t, exec (.loadkey a 32) m = .next t ∧ KeyClamped t.r ∧
      t.r.x0.toNat ≤ 0x03FFFFFF ∧ t.r.x1.toNat ≤ 0x03FFFF03 ∧ t.r.x2.toNat ≤ 0x03FFC0FF ∧ t.r.x3.toNat ≤ 0x03F03FFF ∧
      t.r.x4.toNat ≤ 0x000FFFFF ∧ MultiplesExact t.r t.s ∧
      t.s.x1.toNat ≤ 0x13FFFB0F ∧ t.s.x2.toNat ≤ 0x13FEC4FB ∧ t.s.x3.toNat ≤ 0x13B13FFB ∧ t.s.x4.toNat ≤ 0x004FFFFB ∧
      t.k.val = leNat (m.om.readBytes (a.toNat + 16) 16)

/-- R65: while a key is loaded, no command word but DISPOSE's changes r, s or k. -/
def Obligations.KeyScheduleIsImmutableOnceLoaded : Prop :=
  ∀ (cw : CommandWord) (m t : State), m.st = .ready → acceptCommand cw m = .next t → decode cw ≠ .command .dispose →
    t.r = m.r ∧ t.s = m.s ∧ t.k = m.k

/-! ### The block accumulator (spec/41_block_accumulator.md) -/

/-- R70: UPDATE on every lifecycle state and operands: its two failures in their order; otherwise the loop of the rule over the bytes of
the chunk in ascending order, each buffered at off, the sixteenth folded at once. (Stated where off ≤ 15, as R16 has it.) -/
def Obligations.UpdateLoopsOverTheChunk : Prop :=
  ∀ (a l : Int) (m : State),
    (m.st = .uninitialized → exec (.update a l) m = .next (failedWith 4 m)) ∧
    (m.st = .ready → (a < 0 ∨ l < 0 ∨ a + l > m.om.size) → exec (.update a l) m = .next (failedWith 2 m)) ∧
    (m.st = .ready → m.off.val ≤ 15 → 0 ≤ a → 0 ≤ l → a + l ≤ m.om.size →
      let body : State → Byte → State := fun x b =>
        let buf := x.buf.setIfInBounds x.off.val b
        if x.off.val + 1 = 16 then { x with buf := buf, h := foldBlock true (bufByte buf) x.r x.s x.h, off := 0 }
        else { x with buf := buf, off := x.off + 1 }
      let u := ((List.range l.toNat).map fun i => m.om.read (a.toNat + i)).foldl body m
      exec (.update a l) m = .next { u with status := 0x00010000, observed := m.observed ++ [.response 0x00010000] })

/-- R70: an UPDATE of one byte buffers it and counts it; the sixteenth is folded at once, off returns to 0 and buf stays. -/
def Obligations.UpdateAbsorbsOneByte : Prop :=
  ∀ (a : Int) (m : State), m.st = .ready → m.off.val ≤ 15 → 0 ≤ a → a + 1 ≤ m.om.size →
    ∃ t, exec (.update a 1) m = .next t ∧ t.buf = m.buf.setIfInBounds m.off.val (m.om.read a.toNat) ∧
      (m.off.val < 15 → t.off.val = m.off.val + 1 ∧ t.h = m.h) ∧
      (m.off.val = 15 → t.off = 0 ∧ t.h = foldBlock true (bufByte t.buf) m.r m.s m.h) ∧
      t = { m with h := t.h, buf := t.buf, off := t.off, status := 0x00010000,
                   observed := m.observed ++ [.response 0x00010000] }

/-- R70 (a), (b): with L = 0, UPDATE succeeds and changes nothing but STATUS for 0 ≤ A ≤ OM_BYTES, and fails beyond. -/
def Obligations.EmptyUpdateChangesOnlyStatus : Prop :=
  ∀ (a : Int) (m : State), m.st = .ready →
    (0 ≤ a → a ≤ m.om.size → exec (.update a 0) m = .next
      { m with status := 0x00010000, observed := m.observed ++ [.response 0x00010000] }) ∧
    (a > m.om.size → exec (.update a 0) m = .next (failedWith 2 m))

/-- R70, R16: an UPDATE of any length completes; it leaves r, s, k, ST and OM, off is the count of pending bytes modulo 16, and the valid
bytes of buf are the end of the pending bytes followed by the chunk. -/
def Obligations.UpdateBuffersTheRemainder : Prop :=
  ∀ (a l : Int) (m : State), m.st = .ready → m.off.val ≤ 15 → 0 ≤ a → 0 ≤ l → a + l ≤ m.om.size →
    ∃ t, exec (.update a l) m = .next t ∧
      t = { m with h := t.h, buf := t.buf, off := t.off, status := 0x00010000,
                   observed := m.observed ++ [.response 0x00010000] } ∧
      t.off.val = (m.off.val + l.toNat) % 16 ∧
      firstBytes (bufByte t.buf) t.off.val =
        (firstBytes (bufByte m.buf) m.off.val ++ m.om.readBytes a.toNat l.toNat).drop (16 * ((m.off.val + l.toNat) / 16))

/-- R76: two UPDATEs of adjacent chunks leave what one UPDATE of both leaves, but for the second response; and any two ways to give the
same bytes in chunks leave the same accumulator, the same count and the same valid bytes. -/
def Obligations.ChunkIndependence : Prop :=
  (∀ (a l₁ l₂ : Int) (m : State), m.st = .ready → m.off.val ≤ 15 → 0 ≤ a → 0 ≤ l₁ → 0 ≤ l₂ → a + l₁ + l₂ ≤ m.om.size →
    ∃ t u v, exec (.update a l₁) m = .next t ∧ exec (.update (a + l₁) l₂) t = .next u ∧
      exec (.update a (l₁ + l₂)) m = .next v ∧ u = { v with observed := v.observed ++ [.response v.status] }) ∧
  ∀ (chunks₁ chunks₂ : List Chunk) (m : State), m.st = .ready → m.off.val ≤ 15 → (∀ c ∈ chunks₁, c.Inside) →
    (∀ c ∈ chunks₂, c.Inside) → chunks₁.flatMap Chunk.bytes = chunks₂.flatMap Chunk.bytes →
    ∃ t₁ t₂, runUpdates chunks₁ m = some t₁ ∧ runUpdates chunks₂ m = some t₂ ∧ t₁.h = t₂.h ∧ t₁.off = t₂.off ∧
      ∀ j, j < t₁.off.val → bufByte t₁.buf j = bufByte t₂.buf j

/-- R72: the limbs of a block are the bits of its 128-bit number, 26 at a time, the full block's 2^128 in limb 4; AddBlock adds them limb
by limb, and in a reachable state adds the block's number. -/
def Obligations.AddBlockAddsTheBlockNumber : Prop :=
  ∀ (full : Bool) (b : Nat → Byte) (h : Limbs),
    let B := leNat (firstBytes b 16)
    let x := blockLimbs full b
    x.x0.toNat = B % 2 ^ 26 ∧ x.x1.toNat = B / 2 ^ 26 % 2 ^ 26 ∧ x.x2.toNat = B / 2 ^ 52 % 2 ^ 26 ∧
    x.x3.toNat = B / 2 ^ 78 % 2 ^ 26 ∧ x.x4.toNat = B / 2 ^ 104 + (if full then 2 ^ 24 else 0) ∧
    addBlock full b h = ⟨h.x0 + x.x0, h.x1 + x.x1, h.x2 + x.x2, h.x3 + x.x3, h.x4 + x.x4⟩ ∧
    (AccumulatorBounded h → (addBlock full b h).val = h.val + B + (if full then 2 ^ 128 else 0))

/-- R73: each row of MulReduce is its five 64-bit products, summed in 64 bits, whatever the operands; within the reachable bounds nothing
wraps, every row is below 2^57, and the rows' value is val(h)·val(r) modulo P. -/
def Obligations.MulReduceMultipliesModP : Prop :=
  (∀ (h r : Limbs) (s : Multiples),
    let p := fun (x y : Word) => x.setWidth 64 * y.setWidth 64
    let tp := mulReduce h r s
    tp.t0 = p h.x0 r.x0 + p h.x1 s.x4 + p h.x2 s.x3 + p h.x3 s.x2 + p h.x4 s.x1 ∧
    tp.t1 = p h.x0 r.x1 + p h.x1 r.x0 + p h.x2 s.x4 + p h.x3 s.x3 + p h.x4 s.x2 ∧
    tp.t2 = p h.x0 r.x2 + p h.x1 r.x1 + p h.x2 r.x0 + p h.x3 s.x4 + p h.x4 s.x3 ∧
    tp.t3 = p h.x0 r.x3 + p h.x1 r.x2 + p h.x2 r.x1 + p h.x3 r.x0 + p h.x4 s.x4 ∧
    tp.t4 = p h.x0 r.x4 + p h.x1 r.x3 + p h.x2 r.x2 + p h.x3 r.x1 + p h.x4 r.x0) ∧
  ∀ (h r : Limbs) (s : Multiples), KeyClamped r → MultiplesExact r s →
    h.x0.toNat ≤ 0x07FFFFFE → h.x1.toNat ≤ 0x08000024 → h.x2.toNat ≤ 0x07FFFFFE → h.x3.toNat ≤ 0x07FFFFFE →
    h.x4.toNat ≤ 0x07FFFFFE →
    let tp := mulReduce h r s
    let H := fun (x : Word) => x.toNat
    tp.t0.toNat = H h.x0 * H r.x0 + H h.x1 * H s.x4 + H h.x2 * H s.x3 + H h.x3 * H s.x2 + H h.x4 * H s.x1 ∧
    tp.t1.toNat = H h.x0 * H r.x1 + H h.x1 * H r.x0 + H h.x2 * H s.x4 + H h.x3 * H s.x3 + H h.x4 * H s.x2 ∧
    tp.t2.toNat = H h.x0 * H r.x2 + H h.x1 * H r.x1 + H h.x2 * H r.x0 + H h.x3 * H s.x4 + H h.x4 * H s.x3 ∧
    tp.t3.toNat = H h.x0 * H r.x3 + H h.x1 * H r.x2 + H h.x2 * H r.x1 + H h.x3 * H r.x0 + H h.x4 * H s.x4 ∧
    tp.t4.toNat = H h.x0 * H r.x4 + H h.x1 * H r.x3 + H h.x2 * H r.x2 + H h.x3 * H r.x1 + H h.x4 * H r.x0 ∧
    tp.t0.toNat < 2 ^ 57 ∧ tp.t1.toNat < 2 ^ 57 ∧ tp.t2.toNat < 2 ^ 57 ∧ tp.t3.toNat < 2 ^ 57 ∧ tp.t4.toNat < 2 ^ 57 ∧
    tp.val % Config.modulus = (h.val * r.val) % Config.modulus

/-- R74: CarryPropagate as the rule's lines on any rows, 64 bits wide up to the final carry and 32 bits from there; on the rows of a
reachable fold, as integers: the carries go up, the last one comes back five times into limb 0, and limb 0 is carried once more into
limb 1; the value is kept modulo P and the limbs meet the bounds of R22. -/
def Obligations.CarryPropagateKeepsTheValue : Prop :=
  (∀ tp : PartialSums,
    let t1 := tp.t1 + (tp.t0 >>> 26)
    let t2 := tp.t2 + (t1 >>> 26)
    let t3 := tp.t3 + (t2 >>> 26)
    let t4 := tp.t4 + (t3 >>> 26)
    let low := fun (t : DWord) => BitVec.ofNat 32 (t.toNat % 2 ^ 26)
    let h0 := low tp.t0 + BitVec.ofNat 32 (t4.toNat / 2 ^ 26) * 5
    carryPropagate tp = ⟨h0 &&& 0x03FFFFFF, low t1 + (h0 >>> 26), low t2, low t3, low t4⟩) ∧
  ∀ (full : Bool) (b : Nat → Byte) (h r : Limbs) (s : Multiples), AccumulatorBounded h → KeyClamped r → MultiplesExact r s →
    let tp := mulReduce (addBlock full b h) r s
    let T0 := tp.t0.toNat
    let T1 := tp.t1.toNat + T0 / 2 ^ 26
    let T2 := tp.t2.toNat + T1 / 2 ^ 26
    let T3 := tp.t3.toNat + T2 / 2 ^ 26
    let T4 := tp.t4.toNat + T3 / 2 ^ 26
    let c := T4 / 2 ^ 26
    let x := carryPropagate tp
    c ≤ 0x1E000024 ∧
    x.x0.toNat = (T0 % 2 ^ 26 + 5 * c) % 2 ^ 26 ∧ x.x1.toNat = T1 % 2 ^ 26 + (T0 % 2 ^ 26 + 5 * c) / 2 ^ 26 ∧
    x.x2.toNat = T2 % 2 ^ 26 ∧ x.x3.toNat = T3 % 2 ^ 26 ∧ x.x4.toNat = T4 % 2 ^ 26 ∧
    AccumulatorBounded x ∧ x.val % Config.modulus = tp.val % Config.modulus

/-- R75, R71: BlockFold is AddBlock, MulReduce and CarryPropagate in that order and writes only h; within the reachable bounds it is one
step of Horner's rule modulo P and keeps the bounds of h; for a padded partial block the number added is the bytes' and 2^(8q). -/
def Obligations.BlockFoldIsHornerStep : Prop :=
  ∀ (full : Bool) (m : State),
    let t := blockFold full m
    t = { m with h := carryPropagate (mulReduce (addBlock full (bufByte m.buf) m.h) m.r m.s) } ∧
    (KeyClamped m.r → MultiplesExact m.r m.s → AccumulatorBounded m.h →
      let n := leNat (firstBytes (bufByte m.buf) 16) + (if full then 2 ^ 128 else 0)
      t.h.val % Config.modulus = ((m.h.val + n) * m.r.val) % Config.modulus ∧ AccumulatorBounded t.h) ∧
    ∀ q, 1 ≤ q → q ≤ 15 →
      leNat (firstBytes (bufByte (padBuffer m.buf q)) 16) = leNat (firstBytes (bufByte m.buf) q) + 2 ^ (8 * q)

/-! ### The finalizer (spec/42_finalizer.md) -/

/-- R81: the padded buffer byte by byte, and the fold of it without the 2^128 term; off is not changed. -/
def Obligations.PaddingMarksTheEnd : Prop :=
  ∀ m : State, 1 ≤ m.off.val → m.off.val ≤ 15 →
    let p := padBuffer m.buf m.off.val
    (∀ j, j < m.off.val → bufByte p j = bufByte m.buf j) ∧ bufByte p m.off.val = 1 ∧
    (∀ j, m.off.val < j → j < 16 → bufByte p j = 0) ∧
    (foldPartial m).h = foldBlock false (bufByte p) m.r m.s m.h ∧ (foldPartial m).off = m.off

/-- R82: a carry pass is the rule's lines on any limbs; two passes from a reachable accumulator carry it fully, below 2^130, and keep its
value modulo P, the second without a carry out of limb 4. -/
def Obligations.FullCarryNormalisesTheAccumulator : Prop :=
  (∀ h : Limbs,
    let a1 := h.x1 + (h.x0 >>> 26)
    let a2 := h.x2 + (a1 >>> 26)
    let a3 := h.x3 + (a2 >>> 26)
    let a4 := h.x4 + (a3 >>> 26)
    carryPass h = ⟨(h.x0 &&& 0x03FFFFFF) + (a4 >>> 26) * 5, a1 &&& 0x03FFFFFF, a2 &&& 0x03FFFFFF, a3 &&& 0x03FFFFFF,
      a4 &&& 0x03FFFFFF⟩ ∧
    fullCarry h = carryPass (carryPass h)) ∧
  ∀ h : Limbs, AccumulatorBounded h →
    (carryPass h).x0.toNat ≤ 0x03FFFFFF + 5 ∧ (carryPass h).x1.toNat ≤ 0x03FFFFFF ∧
    (carryPass h).val % Config.modulus = h.val % Config.modulus ∧
    (2 ^ 26 ≤ (carryPass h).x0.toNat → (fullCarry h).x1.toNat ≤ 38) ∧ (fullCarry h).val = (carryPass h).val ∧
    FullyCarried (fullCarry h) ∧ (fullCarry h).val < 2 ^ 130 ∧ (fullCarry h).val % Config.modulus = h.val % Config.modulus

/-- R83: ReduceSelect takes the tentative value g of the rule's lines unless g4's sign bit is set, whatever the limbs; on fully carried
limbs that is val(h) modulo P, fully carried: h itself below P, h − P from P on. -/
def Obligations.ReduceSelectIsTheResidue : Prop :=
  (∀ h : Limbs,
    let g0 := h.x0 + 5
    let g1 := h.x1 + (g0 >>> 26)
    let g2 := h.x2 + (g1 >>> 26)
    let g3 := h.x3 + (g2 >>> 26)
    let g4 := h.x4 + (g3 >>> 26) - 0x04000000
    reduceSelect h = if g4.msb then h else ⟨g0 &&& 0x03FFFFFF, g1 &&& 0x03FFFFFF, g2 &&& 0x03FFFFFF, g3 &&& 0x03FFFFFF, g4⟩) ∧
  ∀ h : Limbs, FullyCarried h →
    (reduceSelect h).val = h.val % Config.modulus ∧ FullyCarried (reduceSelect h) ∧
    (h.val < Config.modulus → reduceSelect h = h) ∧ (Config.modulus ≤ h.val → (reduceSelect h).val = h.val - Config.modulus)

/-- R84: the tag words are the sum, modulo 2^128, of the packing's four words and K, whatever the limbs; on fully carried limbs that is
(val(h) mod 2^128 + K) mod 2^128, and written little-endian they are its 16 bytes. -/
def Obligations.TagAssembleAddsTheMask : Prop :=
  ∀ (h : Limbs) (k : Words4),
    let f0 := h.x0 ||| (h.x1 <<< 26)
    let f1 := (h.x1 >>> 6) ||| (h.x2 <<< 20)
    let f2 := (h.x2 >>> 12) ||| (h.x3 <<< 14)
    let f3 := (h.x3 >>> 18) ||| (h.x4 <<< 8)
    let w := tagAssemble h k
    w.val = (f0.toNat + f1.toNat * 2 ^ 32 + f2.toNat * 2 ^ 64 + f3.toNat * 2 ^ 96 + k.val) % 2 ^ 128 ∧
    (FullyCarried h → w.val = (h.val % 2 ^ 128 + k.val) % 2 ^ 128) ∧
    wordBytes w.x0 ++ wordBytes w.x1 ++ wordBytes w.x2 ++ wordBytes w.x3 = leBytes 16 w.val

/-- R80: FINAL on every lifecycle state and operand: its three failures in their order; otherwise the partial block, if there is one, is
padded and folded, the 16 bytes at A are the tag, no other byte of OM changes, and the message state is cleared under the same key. -/
def Obligations.FinalWritesTheTag : Prop :=
  ∀ (a : Int) (m : State),
    (m.st = .uninitialized → exec (.final a) m = .next (failedWith 4 m)) ∧
    (m.st = .ready → (a < 0 ∨ a > m.om.size) → exec (.final a) m = .next (failedWith 2 m)) ∧
    (m.st = .ready → 0 ≤ a → a ≤ m.om.size → a + 16 > m.om.size → exec (.final a) m = .next (failedWith 3 m)) ∧
    (m.st = .ready → m.off.val ≤ 15 → m.om.wf → 0 ≤ a → a + 16 ≤ m.om.size →
      let h := if m.off.val = 0 then m.h else foldBlock false (bufByte (padBuffer m.buf m.off.val)) m.r m.s m.h
      let w := tagAssemble (reduceSelect (fullCarry h)) m.k
      ∃ t, exec (.final a) m = .next t ∧
        t.om.readBytes a.toNat 16 = wordBytes w.x0 ++ wordBytes w.x1 ++ wordBytes w.x2 ++ wordBytes w.x3 ∧
        (∀ x : Nat, (x : Int) < a ∨ a + 16 ≤ x → t.om.read x = m.om.read x) ∧ t.om.size = m.om.size ∧
        t = { m with h := ⟨0, 0, 0, 0, 0⟩, buf := Vector.replicate 16 0, off := 0, om := t.om, status := 0x00010000,
                     observed := m.observed ++ [.response 0x00010000] })

/-- R81 to R84: in a reachable state the tag FINAL writes is the accumulator's residue modulo P, the pending bytes folded in, plus K, modulo
2^128. -/
def Obligations.FinalTagIsResiduePlusMask : Prop :=
  ∀ (a : Int) (m : State), m.Inv → m.st = .ready → 0 ≤ a → a + 16 ≤ m.om.size →
    let acc := if m.off.val = 0 then m.h.val else (m.h.val + blockNumber (firstBytes (bufByte m.buf) m.off.val)) * m.r.val
    ∃ t, exec (.final a) m = .next t ∧
      t.om.readBytes a.toNat 16 = leBytes 16 ((acc % Config.modulus + m.k.val) % 2 ^ 128)

/-- R85: h, buf and off are zeroed by FINAL and RESET, which leave r, s, k and ST; the registers are then exactly those a LOADKEY of the same
key leaves. -/
def Obligations.ClearedStateEqualsFreshlyKeyed : Prop :=
  ∀ (a₀ : Int) (m₀ t₀ m t : State), exec (.loadkey a₀ 32) m₀ = .next t₀ → statusCode t₀.status = 0 →
    m.st = .ready → m.r = t₀.r → m.s = t₀.s → m.k = t₀.k →
    ((∃ a, exec (.final a) m = .next t ∧ statusCode t.status = 0) ∨ exec .reset m = .next t) →
    t.r = t₀.r ∧ t.s = t₀.s ∧ t.k = t₀.k ∧ t.h = t₀.h ∧ t.buf = t₀.buf ∧ t.off = t₀.off ∧ t.st = t₀.st ∧ t.status = t₀.status ∧
    t.MessageCleared

/-- R80 (a), R86: with nothing absorbed, FINAL writes the 16 bytes of K. -/
def Obligations.EmptyMessageTagIsTheMask : Prop :=
  ∀ (a : Int) (m : State), m.st = .ready → m.MessageCleared → m.om.wf → 0 ≤ a → a + 16 ≤ m.om.size →
    ∃ t, exec (.final a) m = .next t ∧ t.om.readBytes a.toNat 16 = leBytes 16 m.k.val

/-- R86: the engine computes Poly1305. After a LOADKEY of a 32-byte key, or in any later state with that key and a cleared message state (as
FINAL and RESET leave it), any sequence of UPDATEs, the host changing OM between them as it likes, is absorbed, and FINAL writes the tag of
the message they make up. -/
def Obligations.EngineComputesPoly1305 : Prop :=
  ∀ (a₀ : Int) (m₀ : State), m₀.st = .uninitialized → 0 ≤ a₀ → a₀ + 32 ≤ m₀.om.size →
    ∃ t₀, exec (.loadkey a₀ 32) m₀ = .next t₀ ∧ t₀.st = .ready ∧ t₀.MessageCleared ∧
      ∀ (m : State) (chunks : List Chunk) (om : Memory) (a : Int),
        m.st = .ready → m.r = t₀.r → m.s = t₀.s → m.k = t₀.k → m.MessageCleared →
        (∀ c ∈ chunks, c.Inside) → om.wf → 0 ≤ a → a + 16 ≤ om.size →
        ∃ t u, runUpdates chunks m = some t ∧ exec (.final a) { t with om := om } = .next u ∧
          u.om.readBytes a.toNat 16 = poly1305 (m₀.om.readBytes a₀.toNat 32) (chunks.flatMap Chunk.bytes)

/-- R86, D0 §8 "Reset equivalence": the same from any reachable Ready state with a cleared message state, in terms of its registers. -/
def Obligations.ClearedStateTagsTheNextMessage : Prop :=
  ∀ (m : State) (chunks : List Chunk) (om : Memory) (a : Int), m.Inv → m.st = .ready → m.MessageCleared →
    (∀ c ∈ chunks, c.Inside) → om.wf → 0 ≤ a → a + 16 ≤ om.size →
    ∃ t u, runUpdates chunks m = some t ∧ exec (.final a) { t with om := om } = .next u ∧
      u.om.readBytes a.toNat 16 =
        leBytes 16 ((polyAccumulate m.r.val (chunks.flatMap Chunk.bytes) + m.k.val) % 2 ^ 128) ∧
      u.r = m.r ∧ u.s = m.s ∧ u.k = m.k ∧ u.MessageCleared

/-! ### Lifecycle commands (spec/43_lifecycle_commands.md) -/

/-- R90: RESET never fails, clears h, buf and off, and changes nothing else but STATUS. -/
def Obligations.ResetClearsTheMessage : Prop :=
  ∀ m : State, exec .reset m = .next
    { m with h := ⟨0, 0, 0, 0, 0⟩, buf := Vector.replicate 16 0, off := 0,
             status := if m.st = .ready then 0x00010000 else 0x00000000,
             observed := m.observed ++ [.response (if m.st = .ready then 0x00010000 else 0x00000000)] }

/-- R91: TAGLEN never fails, answers 16 in VAL, and changes nothing but STATUS. -/
def Obligations.TaglenAnswersSixteen : Prop :=
  ∀ m : State, exec .taglen m = .next
    { m with status := if m.st = .ready then 0x00011000 else 0x00001000,
             observed := m.observed ++ [.response (if m.st = .ready then 0x00011000 else 0x00001000)] }

/-- R92: DISPOSE never fails; every register has its hardware-reset value, OM is as it was. -/
def Obligations.DisposeErasesEverySecret : Prop :=
  ∀ m : State, exec .dispose m = .next
    (State.afterReset m.om m.commandPort (m.observed ++ [.response 0x00000000]))

/-! ### The operand memory (spec/20_memory.md) -/

/-- R32: no byte of OM outside a successful FINAL's 16 bytes is written by a command, and what a command does, the values of those 16 bytes
included, depends on no byte it is not told to read. (The values written are compared in memories of canonical form, which every step
keeps: StepKeepsReachableBounds.) -/
def Obligations.CommandsAccessOnlyTheirWindows : Prop :=
  ∀ (i : Instr) (m : State), m.off.val ≤ 15 →
    ∃ t, exec i m = .next t ∧
      (∀ x, ¬ i.Writes x ∨ statusCode t.status ≠ 0 → t.om.read x = m.om.read x) ∧
      ∀ om : Memory, om.size = m.om.size → (statusCode t.status = 0 → ∀ x, i.Reads x → om.read x = m.om.read x) →
        ∃ u, exec i { m with om := om } = .next u ∧ u = { t with om := u.om } ∧
          (∀ x, ¬ i.Writes x ∨ statusCode t.status ≠ 0 → u.om.read x = om.read x) ∧
          (m.om.wf → om.wf → statusCode t.status = 0 → ∀ x, i.Writes x → u.om.read x = t.om.read x)

/-- R31: HostWrite sets exactly its bytes and HostRead returns them and changes nothing; a wide write is its bytes one at a time, ascending;
an access outside OM is no step of the model (U2). -/
def Obligations.HostAccessesAreByteExact : Prop :=
  ∀ (a : Int) (n : Nat) (b : Byte) (bytes : List Byte) (m : State), m.om.wf →
    ((a < 0 ∨ a + (bytes.length : Int) > m.om.size) → perform (.hostWrite a bytes) m = .refused .hostAccessOutside) ∧
    ((a < 0 ∨ a + (n : Int) > m.om.size) → perform (.hostRead a n) m = .refused .hostAccessOutside) ∧
    (0 ≤ a → a + (bytes.length : Int) ≤ m.om.size → ∃ t, perform (.hostWrite a bytes) m = .next t ∧
      t = { m with om := t.om } ∧ t.om.size = m.om.size ∧ t.om.wf ∧ t.om.readBytes a.toNat bytes.length = bytes ∧
      ∀ x : Nat, (x : Int) < a ∨ a + bytes.length ≤ x → t.om.read x = m.om.read x) ∧
    (0 ≤ a → a + (n : Int) ≤ m.om.size → perform (.hostRead a n) m = .next
      { m with observed := m.observed ++ [.memory (m.om.readBytes a.toNat n)] }) ∧
    (0 ≤ a → a + 1 + (bytes.length : Int) ≤ m.om.size → ∃ t, perform (.hostWrite a [b]) m = .next t ∧
      perform (.hostWrite a (b :: bytes)) m = perform (.hostWrite (a + 1) bytes) t)

/-- R34: a word is four bytes, the first the least significant, and is written back as those bytes. -/
def Obligations.WordsAreLittleEndian : Prop :=
  ∀ (b : Nat → Byte) (i : Nat) (w : Word),
    (le32 b i).toNat = (b i).toNat + 2 ^ 8 * (b (i + 1)).toNat + 2 ^ 16 * (b (i + 2)).toNat + 2 ^ 24 * (b (i + 3)).toNat ∧
    wordBytes (le32 b i) = [b i, b (i + 1), b (i + 2), b (i + 3)] ∧ leNat (wordBytes w) = w.toNat
end

