-- ==== Sys2Proof/Laws/Decode.lean ====
section
/-! SUPPORT. The fields of a command word, immediates, and everything decoding can answer (spec/30_encoding.md R50 to R54). -/

namespace Sys2Proof

/-! ### Immediates (R52) -/

theorem sext32_eq_toInt (v : BitVec 32) : sext32 v = v.toInt := by
  rw [sext32, BitVec.toInt_eq_toNat_cond]
  have := v.isLt
  split_ifs <;> omega

theorem immediateInRange_sext32 (v : BitVec 32) : ImmediateInRange (sext32 v) := by
  have := v.isLt
  unfold sext32 ImmediateInRange
  split_ifs <;> omega

theorem ofInt_sext32 (v : BitVec 32) : BitVec.ofInt 32 (sext32 v) = v := by
  rw [sext32_eq_toInt, BitVec.ofInt_toInt]

theorem sext32_ofInt {a : Int} (h : ImmediateInRange a) : sext32 (BitVec.ofInt 32 a) = a := by
  rw [sext32_eq_toInt, BitVec.toInt_ofInt]
  unfold ImmediateInRange at h
  simp only [Int.bmod]
  omega

/-! ### Fields (R50) -/

theorem append_eq_append_iff {m n : Nat} (x x' : BitVec m) (y y' : BitVec n) : x ++ y = x' ++ y' ↔ x = x' ∧ y = y' := by
  constructor
  · intro h
    have hbit : ∀ i, (x ++ y).getLsbD i = (x' ++ y').getLsbD i := fun i => by rw [h]
    simp only [BitVec.getLsbD_append] at hbit
    constructor
    · exact BitVec.eq_of_getLsbD_eq fun i _ => by simpa using hbit (n + i)
    · exact BitVec.eq_of_getLsbD_eq fun i hi => by simpa [hi] using hbit i
  · rintro ⟨rfl, rfl⟩; rfl

theorem append_and_append {m n : Nat} (x x' : BitVec m) (y y' : BitVec n) :
    (x ++ y) &&& (x' ++ y') = (x &&& x') ++ (y &&& y') := by
  apply BitVec.eq_of_getLsbD_eq
  intro i hi
  simp only [BitVec.getLsbD_and, BitVec.getLsbD_append]
  split_ifs <;> simp

/-- A command word is its four fields, L the most significant. -/
theorem commandWord_eq_fields (cw : CommandWord) :
    cw = CommandWord.lengthField cw ++ (CommandWord.offsetField cw ++ (CommandWord.rsv cw ++ CommandWord.op cw)) := by
  ext i hi
  simp only [CommandWord.op, CommandWord.rsv, CommandWord.offsetField, CommandWord.lengthField, ← BitVec.getLsbD_eq_getElem,
    BitVec.getLsbD_append, BitVec.getLsbD_extractLsb']
  split_ifs <;> (rw [decide_eq_true (by omega), Bool.true_and]; congr 1; omega)

theorem fields_append (l a : BitVec 32) (r : BitVec 24) (p : BitVec 8) :
    CommandWord.op (l ++ (a ++ (r ++ p))) = p ∧ CommandWord.rsv (l ++ (a ++ (r ++ p))) = r ∧
    CommandWord.offsetField (l ++ (a ++ (r ++ p))) = a ∧ CommandWord.lengthField (l ++ (a ++ (r ++ p))) = l := by
  have h := commandWord_eq_fields (l ++ (a ++ (r ++ p)))
  rw [append_eq_append_iff, append_eq_append_iff, append_eq_append_iff] at h
  exact ⟨h.2.2.2.symm, h.2.2.1.symm, h.2.1.symm, h.1.symm⟩

theorem fields_assemble (op : BitVec 8) (a l : Int) :
    CommandWord.op (assemble op a l) = op ∧ CommandWord.rsv (assemble op a l) = 0 ∧
    CommandWord.offsetField (assemble op a l) = BitVec.ofInt 32 a ∧ CommandWord.lengthField (assemble op a l) = BitVec.ofInt 32 l :=
  fields_append ..

/-! ### Decoding (R53, R54) -/

/-- Everything a word that decodes to a command can be. -/
theorem decode_command_cases {cw : CommandWord} {i : Instr} (h : decode cw = .command i) : CommandWord.rsv cw = 0 ∧
    ((CommandWord.op cw = 1 ∧ i = .loadkey (sext32 (CommandWord.offsetField cw)) (sext32 (CommandWord.lengthField cw))) ∨
     (CommandWord.op cw = 2 ∧ i = .update (sext32 (CommandWord.offsetField cw)) (sext32 (CommandWord.lengthField cw))) ∨
     (CommandWord.op cw = 3 ∧ CommandWord.lengthField cw = 0 ∧ i = .final (sext32 (CommandWord.offsetField cw))) ∨
     (CommandWord.offsetField cw = 0 ∧ CommandWord.lengthField cw = 0 ∧
       ((CommandWord.op cw = 4 ∧ i = .reset) ∨ (CommandWord.op cw = 5 ∧ i = .taglen) ∨ (CommandWord.op cw = 6 ∧ i = .dispose)))) := by
  generalize hl : CommandWord.lengthField cw = l
  generalize ha : CommandWord.offsetField cw = a
  generalize hr : CommandWord.rsv cw = r
  generalize hop : CommandWord.op cw = p
  unfold decode decodeOL decodeO decodeN at h
  simp only [hl, ha, hr, hop] at h
  split_ifs at h <;> cases h <;> simp_all

/-- Everything a word that decodes to no command can be. -/
theorem decode_illegal_cases {cw : CommandWord} {why : IllegalWord} (h : decode cw = .illegal why) :
    CommandWord.rsv cw ≠ 0 ∨
    (CommandWord.op cw ≠ 1 ∧ CommandWord.op cw ≠ 2 ∧ (CommandWord.op cw = 3 → CommandWord.lengthField cw ≠ 0) ∧
      (CommandWord.op cw = 4 ∨ CommandWord.op cw = 5 ∨ CommandWord.op cw = 6 →
        CommandWord.offsetField cw ≠ 0 ∨ CommandWord.lengthField cw ≠ 0)) := by
  generalize hl : CommandWord.lengthField cw = l
  generalize ha : CommandWord.offsetField cw = a
  generalize hr : CommandWord.rsv cw = r
  generalize hop : CommandWord.op cw = p
  unfold decode decodeOL decodeO decodeN at h
  simp only [hl, ha, hr, hop] at h
  split_ifs at h <;> cases h <;> simp_all

end Sys2Proof
end

