-- ==== Sys2Proof/Laws/Memory.lean ====
section
/-! SUPPORT. The operand memory: a read after a write, what a write leaves alone, and that every operation keeps the canonical
form (spec/20_memory.md R31, R36). -/

namespace Sys2Proof.Machine

theorem lookupCell_eq_unlisted {a : Nat} {cells : List Host.Cell} (h : ∀ c ∈ cells, c.1 ≠ a) :
    lookupCell a cells = Config.unlistedByte := by
  induction cells with
  | nil => rfl
  | cons c rest ih =>
    obtain ⟨b, v⟩ := c
    have hb : a ≠ b := fun e => h (b, v) (by simp) e.symm
    simp only [lookupCell, hb, if_false]
    exact ih fun c hc => h c (by simp [hc])

theorem lookupCell_consCell_same {a : Nat} {v : Byte} {rest : List Host.Cell} (h : ∀ c ∈ rest, c.1 ≠ a) :
    lookupCell a (consCell a v rest) = v := by
  unfold consCell
  split
  · next hv => rw [lookupCell_eq_unlisted h, hv]
  · simp [lookupCell]

theorem lookupCell_consCell_other {a x : Nat} {v : Byte} {rest : List Host.Cell} (h : x ≠ a) :
    lookupCell x (consCell a v rest) = lookupCell x rest := by
  unfold consCell
  split
  · rfl
  · simp [lookupCell, h]

/-- The address order of a canonical list. -/
abbrev CellsRising (cells : List Host.Cell) : Prop := cells.Pairwise fun x y => x.1 < y.1

theorem lookupCell_storeCell_same (a : Nat) (v : Byte) {cells : List Host.Cell} (h : CellsRising cells) :
    lookupCell a (storeCell a v cells) = v := by
  induction cells with
  | nil => exact lookupCell_consCell_same (by simp)
  | cons c rest ih =>
    obtain ⟨b, w⟩ := c
    rw [CellsRising, List.pairwise_cons] at h
    simp only [storeCell]
    split
    · next hlt =>
      refine lookupCell_consCell_same fun c hc => ?_
      rcases List.mem_cons.1 hc with rfl | hc
      · exact Nat.ne_of_gt hlt
      · have := h.1 c hc
        simp only at this
        omega
    · split
      · next heq =>
        refine lookupCell_consCell_same fun c hc => ?_
        have := h.1 c hc
        simp only at this
        omega
      · next hne => simp only [lookupCell, hne, if_false]; exact ih h.2

theorem lookupCell_storeCell_other {a x : Nat} (v : Byte) {cells : List Host.Cell} (hx : x ≠ a) :
    lookupCell x (storeCell a v cells) = lookupCell x cells := by
  induction cells with
  | nil => exact lookupCell_consCell_other hx
  | cons c rest ih =>
    obtain ⟨b, w⟩ := c
    simp only [storeCell]
    split
    · exact lookupCell_consCell_other hx
    · split
      · next heq =>
        rw [lookupCell_consCell_other hx]
        have : x ≠ b := heq ▸ hx
        simp [lookupCell, this]
      · simp only [lookupCell, ih]

theorem consCell_mem {a : Nat} {v : Byte} {rest : List Host.Cell} {c : Host.Cell} (h : c ∈ consCell a v rest) :
    (c = (a, v) ∧ v ≠ Config.unlistedByte) ∨ c ∈ rest := by
  unfold consCell at h
  split at h
  · exact .inr h
  · next hv =>
    rcases List.mem_cons.1 h with rfl | h
    · exact .inl ⟨rfl, hv⟩
    · exact .inr h

theorem storeCell_mem {a : Nat} {v : Byte} {cells : List Host.Cell} {c : Host.Cell} (h : c ∈ storeCell a v cells) :
    (c = (a, v) ∧ v ≠ Config.unlistedByte) ∨ c ∈ cells := by
  induction cells with
  | nil => exact consCell_mem h
  | cons d rest ih =>
    obtain ⟨b, w⟩ := d
    simp only [storeCell] at h
    split at h
    · exact consCell_mem h
    · split at h
      · exact (consCell_mem h).imp id (List.mem_cons_of_mem _)
      · rcases List.mem_cons.1 h with rfl | h
        · exact .inr (by simp)
        · exact (ih h).imp id (List.mem_cons_of_mem _)

theorem consCell_rising {a : Nat} {v : Byte} {rest : List Host.Cell} (h : CellsRising rest) (ha : ∀ c ∈ rest, a < c.1) :
    CellsRising (consCell a v rest) := by
  unfold consCell
  split
  · exact h
  · exact List.pairwise_cons.2 ⟨ha, h⟩

theorem storeCell_rising (a : Nat) (v : Byte) {cells : List Host.Cell} (h : CellsRising cells) :
    CellsRising (storeCell a v cells) := by
  induction cells with
  | nil => exact consCell_rising h (by simp)
  | cons d rest ih =>
    obtain ⟨b, w⟩ := d
    have h' := List.pairwise_cons.1 h
    simp only [storeCell]
    split
    · next hlt =>
      refine consCell_rising h fun c hc => ?_
      rcases List.mem_cons.1 hc with rfl | hc
      · exact hlt
      · exact hlt.trans (h'.1 c hc)
    · split
      · next heq => exact consCell_rising h'.2 fun c hc => heq ▸ h'.1 c hc
      · next hnlt hne =>
        refine List.pairwise_cons.2 ⟨fun c hc => ?_, ih h'.2⟩
        rcases storeCell_mem hc with ⟨rfl, -⟩ | hc
        · simp only; omega
        · exact h'.1 c hc

namespace Memory

@[simp] theorem write_size (m : Memory) (a : Nat) (v : Byte) : (m.write a v).size = m.size := by
  unfold write; split <;> rfl

/-- A write keeps the canonical form, wherever it goes. -/
theorem write_wf {m : Memory} (h : m.wf) (a : Nat) (v : Byte) : (m.write a v).wf := by
  unfold write
  split
  · next ha =>
    refine ⟨storeCell_rising a v h.1, fun c hc => ?_⟩
    rcases storeCell_mem hc with ⟨rfl, hv⟩ | hc
    · exact ⟨hv, ha⟩
    · exact h.2 c hc
  · exact h

/-- A read after a write to the same address of OM gives the byte written. -/
theorem read_write_same {m : Memory} (h : m.wf) {a : Nat} (ha : a < m.size) (v : Byte) : (m.write a v).read a = v := by
  unfold write read
  rw [if_pos ha]
  exact lookupCell_storeCell_same a v h.1

/-- A write leaves every other address alone. -/
theorem read_write_other (m : Memory) {a x : Nat} (hx : x ≠ a) (v : Byte) : (m.write a v).read x = m.read x := by
  unfold write read
  split
  · exact lookupCell_storeCell_other v hx
  · rfl

@[simp] theorem writeBytes_size (m : Memory) (a : Nat) (bs : List Byte) : (m.writeBytes a bs).size = m.size := by
  induction bs generalizing m a with
  | nil => rfl
  | cons b bs ih => simp [writeBytes, ih]

theorem writeBytes_wf {m : Memory} (h : m.wf) (a : Nat) (bs : List Byte) : (m.writeBytes a bs).wf := by
  induction bs generalizing m a with
  | nil => exact h
  | cons b bs ih => exact ih (write_wf h a b) (a + 1)

/-- Bytes outside the written window are unchanged. -/
theorem read_writeBytes_outside (m : Memory) (a : Nat) (bs : List Byte) {x : Nat} (hx : x < a ∨ a + bs.length ≤ x) :
    (m.writeBytes a bs).read x = m.read x := by
  induction bs generalizing m a with
  | nil => rfl
  | cons b bs ih =>
    simp only [List.length_cons] at hx
    rw [writeBytes, ih (m.write a b) (a + 1) (by omega), read_write_other m (by omega)]

/-- Bytes inside the written window are the bytes written. -/
theorem read_writeBytes_inside {m : Memory} (h : m.wf) (a : Nat) (bs : List Byte) (hsize : a + bs.length ≤ m.size) {j : Nat}
    (hj : j < bs.length) : (m.writeBytes a bs).read (a + j) = bs[j] := by
  induction bs generalizing m a j with
  | nil => simp at hj
  | cons b bs ih =>
    simp only [List.length_cons] at hsize hj
    rw [writeBytes]
    cases j with
    | zero =>
      rw [read_writeBytes_outside _ _ _ (by omega), Nat.add_zero, read_write_same h (by omega)]
      rfl
    | succ j =>
      have := ih (write_wf h a b) (a + 1) (by rw [write_size]; omega) (j := j) (by omega)
      rw [show a + (j + 1) = a + 1 + j by omega, this]
      rfl

@[simp] theorem readBytes_length (m : Memory) (a n : Nat) : (m.readBytes a n).length = n := by simp [readBytes]

theorem readBytes_getElem (m : Memory) (a n : Nat) {j : Nat} (hj : j < (m.readBytes a n).length) :
    (m.readBytes a n)[j] = m.read (a + j) := by simp [readBytes]

theorem readBytes_add (m : Memory) (a n k : Nat) : m.readBytes a (n + k) = m.readBytes a n ++ m.readBytes (a + n) k := by
  simp [readBytes, List.range_add, Nat.add_assoc]

/-- What was written is read back. -/
theorem readBytes_writeBytes {m : Memory} (h : m.wf) (a : Nat) (bs : List Byte) (hsize : a + bs.length ≤ m.size) :
    (m.writeBytes a bs).readBytes a bs.length = bs := by
  refine List.ext_getElem (by simp) fun j hj hj' => ?_
  rw [readBytes_getElem, read_writeBytes_inside h a bs hsize hj']

theorem readBytes_congr {m m' : Memory} {a n : Nat} (h : ∀ x, a ≤ x → x < a + n → m'.read x = m.read x) :
    m'.readBytes a n = m.readBytes a n := by
  refine List.map_congr_left fun j hj => ?_
  exact h _ (by omega) (by have := List.mem_range.1 hj; omega)

@[simp] theorem writeWords4_size (m : Memory) (a : Nat) (w : Words4) : (m.writeWords4 a w).size = m.size := writeBytes_size ..

theorem writeWords4_wf {m : Memory} (h : m.wf) (a : Nat) (w : Words4) : (m.writeWords4 a w).wf := writeBytes_wf h ..

theorem foldl_write_size (contents : List Host.Cell) (m : Memory) :
    (contents.foldl (fun m c => m.write c.1 c.2) m).size = m.size := by
  induction contents generalizing m with
  | nil => rfl
  | cons c rest ih => simp [ih]

theorem foldl_write_wf (contents : List Host.Cell) {m : Memory} (h : m.wf) :
    (contents.foldl (fun m c => m.write c.1 c.2) m).wf := by
  induction contents generalizing m with
  | nil => exact h
  | cons c rest ih => exact ih (write_wf h _ _)

@[simp] theorem ofCells_size (size : Nat) (contents : List Host.Cell) : (ofCells size contents).size = size :=
  foldl_write_size contents ⟨size, []⟩

theorem empty_wf (size : Nat) : (⟨size, []⟩ : Memory).wf := ⟨List.Pairwise.nil, by simp⟩

theorem ofCells_wf (size : Nat) (contents : List Host.Cell) : (ofCells size contents).wf := foldl_write_wf contents (empty_wf size)

end Memory

end Sys2Proof.Machine
end

