-- ==== Sys2Proof/Laws/State.lean ====
section
/-! SUPPORT. One lemma per field of State per update, so that no later proof unfolds a record update. -/

namespace Sys2Proof.Machine

/-- Two states with the same fields are the same state. -/
theorem State.ext_fields {x y : State} (hr : x.r = y.r) (hs : x.s = y.s) (hk : x.k = y.k) (hh : x.h = y.h) (hbuf : x.buf = y.buf)
    (hoff : x.off = y.off) (hst : x.st = y.st) (hstatus : x.status = y.status) (hom : x.om = y.om)
    (hport : x.commandPort = y.commandPort) (hobs : x.observed = y.observed) : x = y := by
  cases x; cases y; simp_all

/-! ### The writes of spec/10_state.md's registers, one field each -/

@[simp] theorem State.setKeySchedule_r (m : State) (r : Limbs) (s : Multiples) (k : Words4) : (m.setKeySchedule r s k).r = r := rfl
@[simp] theorem State.setKeySchedule_s (m : State) (r : Limbs) (s : Multiples) (k : Words4) : (m.setKeySchedule r s k).s = s := rfl
@[simp] theorem State.setKeySchedule_k (m : State) (r : Limbs) (s : Multiples) (k : Words4) : (m.setKeySchedule r s k).k = k := rfl
@[simp] theorem State.setKeySchedule_h (m : State) (r : Limbs) (s : Multiples) (k : Words4) : (m.setKeySchedule r s k).h = m.h := rfl
@[simp] theorem State.setKeySchedule_buf (m : State) (r : Limbs) (s : Multiples) (k : Words4) : (m.setKeySchedule r s k).buf = m.buf := rfl
@[simp] theorem State.setKeySchedule_off (m : State) (r : Limbs) (s : Multiples) (k : Words4) : (m.setKeySchedule r s k).off = m.off := rfl
@[simp] theorem State.setKeySchedule_st (m : State) (r : Limbs) (s : Multiples) (k : Words4) : (m.setKeySchedule r s k).st = m.st := rfl
@[simp] theorem State.setKeySchedule_status (m : State) (r : Limbs) (s : Multiples) (k : Words4) : (m.setKeySchedule r s k).status = m.status := rfl
@[simp] theorem State.setKeySchedule_om (m : State) (r : Limbs) (s : Multiples) (k : Words4) : (m.setKeySchedule r s k).om = m.om := rfl
@[simp] theorem State.setKeySchedule_commandPort (m : State) (r : Limbs) (s : Multiples) (k : Words4) : (m.setKeySchedule r s k).commandPort = m.commandPort := rfl
@[simp] theorem State.setKeySchedule_observed (m : State) (r : Limbs) (s : Multiples) (k : Words4) : (m.setKeySchedule r s k).observed = m.observed := rfl
@[simp] theorem State.setAccumulator_r (m : State) (h : Limbs) : (m.setAccumulator h).r = m.r := rfl
@[simp] theorem State.setAccumulator_s (m : State) (h : Limbs) : (m.setAccumulator h).s = m.s := rfl
@[simp] theorem State.setAccumulator_k (m : State) (h : Limbs) : (m.setAccumulator h).k = m.k := rfl
@[simp] theorem State.setAccumulator_h (m : State) (h : Limbs) : (m.setAccumulator h).h = h := rfl
@[simp] theorem State.setAccumulator_buf (m : State) (h : Limbs) : (m.setAccumulator h).buf = m.buf := rfl
@[simp] theorem State.setAccumulator_off (m : State) (h : Limbs) : (m.setAccumulator h).off = m.off := rfl
@[simp] theorem State.setAccumulator_st (m : State) (h : Limbs) : (m.setAccumulator h).st = m.st := rfl
@[simp] theorem State.setAccumulator_status (m : State) (h : Limbs) : (m.setAccumulator h).status = m.status := rfl
@[simp] theorem State.setAccumulator_om (m : State) (h : Limbs) : (m.setAccumulator h).om = m.om := rfl
@[simp] theorem State.setAccumulator_commandPort (m : State) (h : Limbs) : (m.setAccumulator h).commandPort = m.commandPort := rfl
@[simp] theorem State.setAccumulator_observed (m : State) (h : Limbs) : (m.setAccumulator h).observed = m.observed := rfl
@[simp] theorem State.setBuffer_r (m : State) (buf : Vector Byte 16) (off : Fin 17) : (m.setBuffer buf off).r = m.r := rfl
@[simp] theorem State.setBuffer_s (m : State) (buf : Vector Byte 16) (off : Fin 17) : (m.setBuffer buf off).s = m.s := rfl
@[simp] theorem State.setBuffer_k (m : State) (buf : Vector Byte 16) (off : Fin 17) : (m.setBuffer buf off).k = m.k := rfl
@[simp] theorem State.setBuffer_h (m : State) (buf : Vector Byte 16) (off : Fin 17) : (m.setBuffer buf off).h = m.h := rfl
@[simp] theorem State.setBuffer_buf (m : State) (buf : Vector Byte 16) (off : Fin 17) : (m.setBuffer buf off).buf = buf := rfl
@[simp] theorem State.setBuffer_off (m : State) (buf : Vector Byte 16) (off : Fin 17) : (m.setBuffer buf off).off = off := rfl
@[simp] theorem State.setBuffer_st (m : State) (buf : Vector Byte 16) (off : Fin 17) : (m.setBuffer buf off).st = m.st := rfl
@[simp] theorem State.setBuffer_status (m : State) (buf : Vector Byte 16) (off : Fin 17) : (m.setBuffer buf off).status = m.status := rfl
@[simp] theorem State.setBuffer_om (m : State) (buf : Vector Byte 16) (off : Fin 17) : (m.setBuffer buf off).om = m.om := rfl
@[simp] theorem State.setBuffer_commandPort (m : State) (buf : Vector Byte 16) (off : Fin 17) : (m.setBuffer buf off).commandPort = m.commandPort := rfl
@[simp] theorem State.setBuffer_observed (m : State) (buf : Vector Byte 16) (off : Fin 17) : (m.setBuffer buf off).observed = m.observed := rfl
@[simp] theorem State.setLifecycle_r (m : State) (st : Lifecycle) : (m.setLifecycle st).r = m.r := rfl
@[simp] theorem State.setLifecycle_s (m : State) (st : Lifecycle) : (m.setLifecycle st).s = m.s := rfl
@[simp] theorem State.setLifecycle_k (m : State) (st : Lifecycle) : (m.setLifecycle st).k = m.k := rfl
@[simp] theorem State.setLifecycle_h (m : State) (st : Lifecycle) : (m.setLifecycle st).h = m.h := rfl
@[simp] theorem State.setLifecycle_buf (m : State) (st : Lifecycle) : (m.setLifecycle st).buf = m.buf := rfl
@[simp] theorem State.setLifecycle_off (m : State) (st : Lifecycle) : (m.setLifecycle st).off = m.off := rfl
@[simp] theorem State.setLifecycle_st (m : State) (st : Lifecycle) : (m.setLifecycle st).st = st := rfl
@[simp] theorem State.setLifecycle_status (m : State) (st : Lifecycle) : (m.setLifecycle st).status = m.status := rfl
@[simp] theorem State.setLifecycle_om (m : State) (st : Lifecycle) : (m.setLifecycle st).om = m.om := rfl
@[simp] theorem State.setLifecycle_commandPort (m : State) (st : Lifecycle) : (m.setLifecycle st).commandPort = m.commandPort := rfl
@[simp] theorem State.setLifecycle_observed (m : State) (st : Lifecycle) : (m.setLifecycle st).observed = m.observed := rfl
@[simp] theorem State.setMemory_r (m : State) (om : Memory) : (m.setMemory om).r = m.r := rfl
@[simp] theorem State.setMemory_s (m : State) (om : Memory) : (m.setMemory om).s = m.s := rfl
@[simp] theorem State.setMemory_k (m : State) (om : Memory) : (m.setMemory om).k = m.k := rfl
@[simp] theorem State.setMemory_h (m : State) (om : Memory) : (m.setMemory om).h = m.h := rfl
@[simp] theorem State.setMemory_buf (m : State) (om : Memory) : (m.setMemory om).buf = m.buf := rfl
@[simp] theorem State.setMemory_off (m : State) (om : Memory) : (m.setMemory om).off = m.off := rfl
@[simp] theorem State.setMemory_st (m : State) (om : Memory) : (m.setMemory om).st = m.st := rfl
@[simp] theorem State.setMemory_status (m : State) (om : Memory) : (m.setMemory om).status = m.status := rfl
@[simp] theorem State.setMemory_om (m : State) (om : Memory) : (m.setMemory om).om = om := rfl
@[simp] theorem State.setMemory_commandPort (m : State) (om : Memory) : (m.setMemory om).commandPort = m.commandPort := rfl
@[simp] theorem State.setMemory_observed (m : State) (om : Memory) : (m.setMemory om).observed = m.observed := rfl
@[simp] theorem State.answer_r (m : State) (rsp : Word) : (m.answer rsp).r = m.r := rfl
@[simp] theorem State.answer_s (m : State) (rsp : Word) : (m.answer rsp).s = m.s := rfl
@[simp] theorem State.answer_k (m : State) (rsp : Word) : (m.answer rsp).k = m.k := rfl
@[simp] theorem State.answer_h (m : State) (rsp : Word) : (m.answer rsp).h = m.h := rfl
@[simp] theorem State.answer_buf (m : State) (rsp : Word) : (m.answer rsp).buf = m.buf := rfl
@[simp] theorem State.answer_off (m : State) (rsp : Word) : (m.answer rsp).off = m.off := rfl
@[simp] theorem State.answer_st (m : State) (rsp : Word) : (m.answer rsp).st = m.st := rfl
@[simp] theorem State.answer_status (m : State) (rsp : Word) : (m.answer rsp).status = rsp := rfl
@[simp] theorem State.answer_om (m : State) (rsp : Word) : (m.answer rsp).om = m.om := rfl
@[simp] theorem State.answer_commandPort (m : State) (rsp : Word) : (m.answer rsp).commandPort = m.commandPort := rfl
@[simp] theorem State.answer_observed (m : State) (rsp : Word) : (m.answer rsp).observed = m.observed ++ [.response rsp] := rfl

/-! ### `respond` -/

@[simp] theorem respond_r (code : CompletionCode) (val : Byte) (m : State) : (respond code val m).r = m.r := by simp [respond]
@[simp] theorem respond_s (code : CompletionCode) (val : Byte) (m : State) : (respond code val m).s = m.s := by simp [respond]
@[simp] theorem respond_k (code : CompletionCode) (val : Byte) (m : State) : (respond code val m).k = m.k := by simp [respond]
@[simp] theorem respond_h (code : CompletionCode) (val : Byte) (m : State) : (respond code val m).h = m.h := by simp [respond]
@[simp] theorem respond_buf (code : CompletionCode) (val : Byte) (m : State) : (respond code val m).buf = m.buf := by simp [respond]
@[simp] theorem respond_off (code : CompletionCode) (val : Byte) (m : State) : (respond code val m).off = m.off := by simp [respond]
@[simp] theorem respond_st (code : CompletionCode) (val : Byte) (m : State) : (respond code val m).st = m.st := by simp [respond]
@[simp] theorem respond_status (code : CompletionCode) (val : Byte) (m : State) : (respond code val m).status = responseWord code.number val m.st.bit := by simp [respond]
@[simp] theorem respond_om (code : CompletionCode) (val : Byte) (m : State) : (respond code val m).om = m.om := by simp [respond]
@[simp] theorem respond_commandPort (code : CompletionCode) (val : Byte) (m : State) : (respond code val m).commandPort = m.commandPort := by simp [respond]
@[simp] theorem respond_observed (code : CompletionCode) (val : Byte) (m : State) : (respond code val m).observed = m.observed ++ [.response (responseWord code.number val m.st.bit)] := by simp [respond]

/-! ### `raise` and `illegalCommand`, in terms of `failedWith` -/

theorem raise_eq_failedWith (code : CompletionCode) (m : State) : raise code m = failedWith code.number m := rfl
theorem illegalCommand_eq_failedWith (m : State) : illegalCommand m = failedWith 5 m := rfl

/-! ### `failedWith` -/

@[simp] theorem failedWith_r (code : Byte) (m : State) : (failedWith code m).r = m.r := rfl
@[simp] theorem failedWith_s (code : Byte) (m : State) : (failedWith code m).s = m.s := rfl
@[simp] theorem failedWith_k (code : Byte) (m : State) : (failedWith code m).k = m.k := rfl
@[simp] theorem failedWith_h (code : Byte) (m : State) : (failedWith code m).h = m.h := rfl
@[simp] theorem failedWith_buf (code : Byte) (m : State) : (failedWith code m).buf = m.buf := rfl
@[simp] theorem failedWith_off (code : Byte) (m : State) : (failedWith code m).off = m.off := rfl
@[simp] theorem failedWith_st (code : Byte) (m : State) : (failedWith code m).st = m.st := rfl
@[simp] theorem failedWith_status (code : Byte) (m : State) : (failedWith code m).status = responseWord code 0 m.st.bit := rfl
@[simp] theorem failedWith_om (code : Byte) (m : State) : (failedWith code m).om = m.om := rfl
@[simp] theorem failedWith_commandPort (code : Byte) (m : State) : (failedWith code m).commandPort = m.commandPort := rfl
@[simp] theorem failedWith_observed (code : Byte) (m : State) : (failedWith code m).observed = m.observed ++ [.response (responseWord code 0 m.st.bit)] := rfl

/-! ### `clearMessageState` and `clearKeySchedule` -/

@[simp] theorem clearMessageState_r (m : State) : (clearMessageState m).r = m.r := by simp [clearMessageState]
@[simp] theorem clearMessageState_s (m : State) : (clearMessageState m).s = m.s := by simp [clearMessageState]
@[simp] theorem clearMessageState_k (m : State) : (clearMessageState m).k = m.k := by simp [clearMessageState]
@[simp] theorem clearMessageState_h (m : State) : (clearMessageState m).h = ⟨0, 0, 0, 0, 0⟩ := by simp [clearMessageState]
@[simp] theorem clearMessageState_buf (m : State) : (clearMessageState m).buf = Vector.replicate 16 0 := by simp [clearMessageState]
@[simp] theorem clearMessageState_off (m : State) : (clearMessageState m).off = 0 := by simp [clearMessageState]
@[simp] theorem clearMessageState_st (m : State) : (clearMessageState m).st = m.st := by simp [clearMessageState]
@[simp] theorem clearMessageState_status (m : State) : (clearMessageState m).status = m.status := by simp [clearMessageState]
@[simp] theorem clearMessageState_om (m : State) : (clearMessageState m).om = m.om := by simp [clearMessageState]
@[simp] theorem clearMessageState_commandPort (m : State) : (clearMessageState m).commandPort = m.commandPort := by simp [clearMessageState]
@[simp] theorem clearMessageState_observed (m : State) : (clearMessageState m).observed = m.observed := by simp [clearMessageState]
@[simp] theorem clearKeySchedule_r (m : State) : (clearKeySchedule m).r = ⟨0, 0, 0, 0, 0⟩ := by simp [clearKeySchedule]
@[simp] theorem clearKeySchedule_s (m : State) : (clearKeySchedule m).s = ⟨0, 0, 0, 0⟩ := by simp [clearKeySchedule]
@[simp] theorem clearKeySchedule_k (m : State) : (clearKeySchedule m).k = ⟨0, 0, 0, 0⟩ := by simp [clearKeySchedule]
@[simp] theorem clearKeySchedule_h (m : State) : (clearKeySchedule m).h = m.h := by simp [clearKeySchedule]
@[simp] theorem clearKeySchedule_buf (m : State) : (clearKeySchedule m).buf = m.buf := by simp [clearKeySchedule]
@[simp] theorem clearKeySchedule_off (m : State) : (clearKeySchedule m).off = m.off := by simp [clearKeySchedule]
@[simp] theorem clearKeySchedule_st (m : State) : (clearKeySchedule m).st = .uninitialized := by simp [clearKeySchedule]
@[simp] theorem clearKeySchedule_status (m : State) : (clearKeySchedule m).status = m.status := by simp [clearKeySchedule]
@[simp] theorem clearKeySchedule_om (m : State) : (clearKeySchedule m).om = m.om := by simp [clearKeySchedule]
@[simp] theorem clearKeySchedule_commandPort (m : State) : (clearKeySchedule m).commandPort = m.commandPort := by simp [clearKeySchedule]
@[simp] theorem clearKeySchedule_observed (m : State) : (clearKeySchedule m).observed = m.observed := by simp [clearKeySchedule]

/-! ### `loadKeySchedule` -/

@[simp] theorem loadKeySchedule_r (key : Nat → Byte) (m : State) : (loadKeySchedule key m).r = clamp key := by simp [loadKeySchedule]
@[simp] theorem loadKeySchedule_s (key : Nat → Byte) (m : State) : (loadKeySchedule key m).s = fiveTimes (clamp key) := by simp [loadKeySchedule]
@[simp] theorem loadKeySchedule_k (key : Nat → Byte) (m : State) : (loadKeySchedule key m).k = maskWords key := by simp [loadKeySchedule]
@[simp] theorem loadKeySchedule_h (key : Nat → Byte) (m : State) : (loadKeySchedule key m).h = m.h := by simp [loadKeySchedule]
@[simp] theorem loadKeySchedule_buf (key : Nat → Byte) (m : State) : (loadKeySchedule key m).buf = m.buf := by simp [loadKeySchedule]
@[simp] theorem loadKeySchedule_off (key : Nat → Byte) (m : State) : (loadKeySchedule key m).off = m.off := by simp [loadKeySchedule]
@[simp] theorem loadKeySchedule_st (key : Nat → Byte) (m : State) : (loadKeySchedule key m).st = m.st := by simp [loadKeySchedule]
@[simp] theorem loadKeySchedule_status (key : Nat → Byte) (m : State) : (loadKeySchedule key m).status = m.status := by simp [loadKeySchedule]
@[simp] theorem loadKeySchedule_om (key : Nat → Byte) (m : State) : (loadKeySchedule key m).om = m.om := by simp [loadKeySchedule]
@[simp] theorem loadKeySchedule_commandPort (key : Nat → Byte) (m : State) : (loadKeySchedule key m).commandPort = m.commandPort := by simp [loadKeySchedule]
@[simp] theorem loadKeySchedule_observed (key : Nat → Byte) (m : State) : (loadKeySchedule key m).observed = m.observed := by simp [loadKeySchedule]

/-! ### `blockFold`, `foldPartial` -/

@[simp] theorem blockFold_r (full : Bool) (m : State) : (blockFold full m).r = m.r := by simp [blockFold]
@[simp] theorem blockFold_s (full : Bool) (m : State) : (blockFold full m).s = m.s := by simp [blockFold]
@[simp] theorem blockFold_k (full : Bool) (m : State) : (blockFold full m).k = m.k := by simp [blockFold]
@[simp] theorem blockFold_h (full : Bool) (m : State) : (blockFold full m).h = foldBlock full (bufByte m.buf) m.r m.s m.h := by simp [blockFold]
@[simp] theorem blockFold_buf (full : Bool) (m : State) : (blockFold full m).buf = m.buf := by simp [blockFold]
@[simp] theorem blockFold_off (full : Bool) (m : State) : (blockFold full m).off = m.off := by simp [blockFold]
@[simp] theorem blockFold_st (full : Bool) (m : State) : (blockFold full m).st = m.st := by simp [blockFold]
@[simp] theorem blockFold_status (full : Bool) (m : State) : (blockFold full m).status = m.status := by simp [blockFold]
@[simp] theorem blockFold_om (full : Bool) (m : State) : (blockFold full m).om = m.om := by simp [blockFold]
@[simp] theorem blockFold_commandPort (full : Bool) (m : State) : (blockFold full m).commandPort = m.commandPort := by simp [blockFold]
@[simp] theorem blockFold_observed (full : Bool) (m : State) : (blockFold full m).observed = m.observed := by simp [blockFold]
@[simp] theorem foldPartial_r (m : State) : (foldPartial m).r = m.r := by simp [foldPartial]
@[simp] theorem foldPartial_s (m : State) : (foldPartial m).s = m.s := by simp [foldPartial]
@[simp] theorem foldPartial_k (m : State) : (foldPartial m).k = m.k := by simp [foldPartial]
@[simp] theorem foldPartial_h (m : State) : (foldPartial m).h = foldBlock false (bufByte (padBuffer m.buf m.off)) m.r m.s m.h := by simp [foldPartial]
@[simp] theorem foldPartial_buf (m : State) : (foldPartial m).buf = padBuffer m.buf m.off := by simp [foldPartial]
@[simp] theorem foldPartial_off (m : State) : (foldPartial m).off = m.off := by simp [foldPartial]
@[simp] theorem foldPartial_st (m : State) : (foldPartial m).st = m.st := by simp [foldPartial]
@[simp] theorem foldPartial_status (m : State) : (foldPartial m).status = m.status := by simp [foldPartial]
@[simp] theorem foldPartial_om (m : State) : (foldPartial m).om = m.om := by simp [foldPartial]
@[simp] theorem foldPartial_commandPort (m : State) : (foldPartial m).commandPort = m.commandPort := by simp [foldPartial]
@[simp] theorem foldPartial_observed (m : State) : (foldPartial m).observed = m.observed := by simp [foldPartial]

/-! ### `observe`, `presentCommand` -/

@[simp] theorem observe_r (o : Observation) (m : State) : (observe o m).r = m.r := rfl
@[simp] theorem observe_s (o : Observation) (m : State) : (observe o m).s = m.s := rfl
@[simp] theorem observe_k (o : Observation) (m : State) : (observe o m).k = m.k := rfl
@[simp] theorem observe_h (o : Observation) (m : State) : (observe o m).h = m.h := rfl
@[simp] theorem observe_buf (o : Observation) (m : State) : (observe o m).buf = m.buf := rfl
@[simp] theorem observe_off (o : Observation) (m : State) : (observe o m).off = m.off := rfl
@[simp] theorem observe_st (o : Observation) (m : State) : (observe o m).st = m.st := rfl
@[simp] theorem observe_status (o : Observation) (m : State) : (observe o m).status = m.status := rfl
@[simp] theorem observe_om (o : Observation) (m : State) : (observe o m).om = m.om := rfl
@[simp] theorem observe_commandPort (o : Observation) (m : State) : (observe o m).commandPort = m.commandPort := rfl
@[simp] theorem observe_observed (o : Observation) (m : State) : (observe o m).observed = m.observed ++ [o] := rfl
@[simp] theorem presentCommand_r (cw : CommandWord) (m : State) : (presentCommand cw m).r = m.r := rfl
@[simp] theorem presentCommand_s (cw : CommandWord) (m : State) : (presentCommand cw m).s = m.s := rfl
@[simp] theorem presentCommand_k (cw : CommandWord) (m : State) : (presentCommand cw m).k = m.k := rfl
@[simp] theorem presentCommand_h (cw : CommandWord) (m : State) : (presentCommand cw m).h = m.h := rfl
@[simp] theorem presentCommand_buf (cw : CommandWord) (m : State) : (presentCommand cw m).buf = m.buf := rfl
@[simp] theorem presentCommand_off (cw : CommandWord) (m : State) : (presentCommand cw m).off = m.off := rfl
@[simp] theorem presentCommand_st (cw : CommandWord) (m : State) : (presentCommand cw m).st = m.st := rfl
@[simp] theorem presentCommand_status (cw : CommandWord) (m : State) : (presentCommand cw m).status = m.status := rfl
@[simp] theorem presentCommand_om (cw : CommandWord) (m : State) : (presentCommand cw m).om = m.om := rfl
@[simp] theorem presentCommand_commandPort (cw : CommandWord) (m : State) : (presentCommand cw m).commandPort = .command cw :: m.commandPort := rfl
@[simp] theorem presentCommand_observed (cw : CommandWord) (m : State) : (presentCommand cw m).observed = m.observed := rfl

/-! ### `State.afterReset` -/

@[simp] theorem afterReset_r (om : Memory) (port : List HostAction) (obs : List Observation) :
    (State.afterReset om port obs).r = ⟨0, 0, 0, 0, 0⟩ := rfl
@[simp] theorem afterReset_s (om : Memory) (port : List HostAction) (obs : List Observation) :
    (State.afterReset om port obs).s = ⟨0, 0, 0, 0⟩ := rfl
@[simp] theorem afterReset_k (om : Memory) (port : List HostAction) (obs : List Observation) :
    (State.afterReset om port obs).k = ⟨0, 0, 0, 0⟩ := rfl
@[simp] theorem afterReset_h (om : Memory) (port : List HostAction) (obs : List Observation) :
    (State.afterReset om port obs).h = ⟨0, 0, 0, 0, 0⟩ := rfl
@[simp] theorem afterReset_buf (om : Memory) (port : List HostAction) (obs : List Observation) :
    (State.afterReset om port obs).buf = Vector.replicate 16 0 := rfl
@[simp] theorem afterReset_off (om : Memory) (port : List HostAction) (obs : List Observation) :
    (State.afterReset om port obs).off = 0 := rfl
@[simp] theorem afterReset_st (om : Memory) (port : List HostAction) (obs : List Observation) :
    (State.afterReset om port obs).st = .uninitialized := rfl
@[simp] theorem afterReset_status (om : Memory) (port : List HostAction) (obs : List Observation) :
    (State.afterReset om port obs).status = 0 := rfl
@[simp] theorem afterReset_om (om : Memory) (port : List HostAction) (obs : List Observation) :
    (State.afterReset om port obs).om = om := rfl
@[simp] theorem afterReset_commandPort (om : Memory) (port : List HostAction) (obs : List Observation) :
    (State.afterReset om port obs).commandPort = port := rfl
@[simp] theorem afterReset_observed (om : Memory) (port : List HostAction) (obs : List Observation) :
    (State.afterReset om port obs).observed = obs := rfl

/-! ### `bufferByte` -/

@[simp] theorem bufferByte_r (m : State) (b : Byte) : (bufferByte m b).r = m.r := by simp [bufferByte]
@[simp] theorem bufferByte_s (m : State) (b : Byte) : (bufferByte m b).s = m.s := by simp [bufferByte]
@[simp] theorem bufferByte_k (m : State) (b : Byte) : (bufferByte m b).k = m.k := by simp [bufferByte]
@[simp] theorem bufferByte_h (m : State) (b : Byte) : (bufferByte m b).h = m.h := by simp [bufferByte]
@[simp] theorem bufferByte_buf (m : State) (b : Byte) : (bufferByte m b).buf = m.buf.setIfInBounds m.off b := by simp [bufferByte]
@[simp] theorem bufferByte_off (m : State) (b : Byte) : (bufferByte m b).off = nextOff m.off := by simp [bufferByte]
@[simp] theorem bufferByte_st (m : State) (b : Byte) : (bufferByte m b).st = m.st := by simp [bufferByte]
@[simp] theorem bufferByte_status (m : State) (b : Byte) : (bufferByte m b).status = m.status := by simp [bufferByte]
@[simp] theorem bufferByte_om (m : State) (b : Byte) : (bufferByte m b).om = m.om := by simp [bufferByte]
@[simp] theorem bufferByte_commandPort (m : State) (b : Byte) : (bufferByte m b).commandPort = m.commandPort := by simp [bufferByte]
@[simp] theorem bufferByte_observed (m : State) (b : Byte) : (bufferByte m b).observed = m.observed := by simp [bufferByte]

/-! ### `foldIfFull` -/

@[simp] theorem foldIfFull_r (m : State) : (foldIfFull m).r = m.r := by
  unfold foldIfFull; split <;> simp
@[simp] theorem foldIfFull_s (m : State) : (foldIfFull m).s = m.s := by
  unfold foldIfFull; split <;> simp
@[simp] theorem foldIfFull_k (m : State) : (foldIfFull m).k = m.k := by
  unfold foldIfFull; split <;> simp
@[simp] theorem foldIfFull_buf (m : State) : (foldIfFull m).buf = m.buf := by
  unfold foldIfFull; split <;> simp
@[simp] theorem foldIfFull_st (m : State) : (foldIfFull m).st = m.st := by
  unfold foldIfFull; split <;> simp
@[simp] theorem foldIfFull_status (m : State) : (foldIfFull m).status = m.status := by
  unfold foldIfFull; split <;> simp
@[simp] theorem foldIfFull_om (m : State) : (foldIfFull m).om = m.om := by
  unfold foldIfFull; split <;> simp
@[simp] theorem foldIfFull_commandPort (m : State) : (foldIfFull m).commandPort = m.commandPort := by
  unfold foldIfFull; split <;> simp
@[simp] theorem foldIfFull_observed (m : State) : (foldIfFull m).observed = m.observed := by
  unfold foldIfFull; split <;> simp

/-! ### `absorbByte`, `absorbBytes`: what UPDATE's loop never writes (spec/41_block_accumulator.md R70, R71) -/

@[simp] theorem absorbByte_r (m : State) (b : Byte) : (absorbByte m b).r = m.r := by
  simp [absorbByte]
@[simp] theorem absorbByte_s (m : State) (b : Byte) : (absorbByte m b).s = m.s := by
  simp [absorbByte]
@[simp] theorem absorbByte_k (m : State) (b : Byte) : (absorbByte m b).k = m.k := by
  simp [absorbByte]
@[simp] theorem absorbByte_st (m : State) (b : Byte) : (absorbByte m b).st = m.st := by
  simp [absorbByte]
@[simp] theorem absorbByte_status (m : State) (b : Byte) : (absorbByte m b).status = m.status := by
  simp [absorbByte]
@[simp] theorem absorbByte_om (m : State) (b : Byte) : (absorbByte m b).om = m.om := by
  simp [absorbByte]
@[simp] theorem absorbByte_commandPort (m : State) (b : Byte) : (absorbByte m b).commandPort = m.commandPort := by
  simp [absorbByte]
@[simp] theorem absorbByte_observed (m : State) (b : Byte) : (absorbByte m b).observed = m.observed := by
  simp [absorbByte]
@[simp] theorem absorbByte_buf (m : State) (b : Byte) : (absorbByte m b).buf = m.buf.setIfInBounds m.off b := by
  simp [absorbByte]
@[simp] theorem absorbBytes_nil (m : State) : absorbBytes m [] = m := rfl
@[simp] theorem absorbBytes_cons (m : State) (b : Byte) (bs : List Byte) :
    absorbBytes m (b :: bs) = absorbBytes (absorbByte m b) bs := rfl
theorem absorbBytes_append (m : State) (xs ys : List Byte) :
    absorbBytes m (xs ++ ys) = absorbBytes (absorbBytes m xs) ys := List.foldl_append ..
@[simp] theorem absorbBytes_r (m : State) (bs : List Byte) : (absorbBytes m bs).r = m.r := by
  induction bs generalizing m with
  | nil => rfl
  | cons b bs ih => simp [ih]
@[simp] theorem absorbBytes_s (m : State) (bs : List Byte) : (absorbBytes m bs).s = m.s := by
  induction bs generalizing m with
  | nil => rfl
  | cons b bs ih => simp [ih]
@[simp] theorem absorbBytes_k (m : State) (bs : List Byte) : (absorbBytes m bs).k = m.k := by
  induction bs generalizing m with
  | nil => rfl
  | cons b bs ih => simp [ih]
@[simp] theorem absorbBytes_st (m : State) (bs : List Byte) : (absorbBytes m bs).st = m.st := by
  induction bs generalizing m with
  | nil => rfl
  | cons b bs ih => simp [ih]
@[simp] theorem absorbBytes_status (m : State) (bs : List Byte) : (absorbBytes m bs).status = m.status := by
  induction bs generalizing m with
  | nil => rfl
  | cons b bs ih => simp [ih]
@[simp] theorem absorbBytes_om (m : State) (bs : List Byte) : (absorbBytes m bs).om = m.om := by
  induction bs generalizing m with
  | nil => rfl
  | cons b bs ih => simp [ih]
@[simp] theorem absorbBytes_commandPort (m : State) (bs : List Byte) : (absorbBytes m bs).commandPort = m.commandPort := by
  induction bs generalizing m with
  | nil => rfl
  | cons b bs ih => simp [ih]
@[simp] theorem absorbBytes_observed (m : State) (bs : List Byte) : (absorbBytes m bs).observed = m.observed := by
  induction bs generalizing m with
  | nil => rfl
  | cons b bs ih => simp [ih]

/-! ### `flushPartial` -/

@[simp] theorem flushPartial_r (m : State) : (flushPartial m).r = m.r := by
  unfold flushPartial; split <;> simp
@[simp] theorem flushPartial_s (m : State) : (flushPartial m).s = m.s := by
  unfold flushPartial; split <;> simp
@[simp] theorem flushPartial_k (m : State) : (flushPartial m).k = m.k := by
  unfold flushPartial; split <;> simp
@[simp] theorem flushPartial_st (m : State) : (flushPartial m).st = m.st := by
  unfold flushPartial; split <;> simp
@[simp] theorem flushPartial_status (m : State) : (flushPartial m).status = m.status := by
  unfold flushPartial; split <;> simp
@[simp] theorem flushPartial_om (m : State) : (flushPartial m).om = m.om := by
  unfold flushPartial; split <;> simp
@[simp] theorem flushPartial_commandPort (m : State) : (flushPartial m).commandPort = m.commandPort := by
  unfold flushPartial; split <;> simp
@[simp] theorem flushPartial_observed (m : State) : (flushPartial m).observed = m.observed := by
  unfold flushPartial; split <;> simp
@[simp] theorem flushPartial_off (m : State) : (flushPartial m).off = m.off := by
  unfold flushPartial; split <;> simp

end Sys2Proof.Machine
end

