-- ==== Sys2Proof/Laws/Exec.lean ====
section
/-! SUPPORT. Once for every command: everything it can answer. Later proofs cite these and do not unfold the meanings. -/

namespace Sys2Proof.Machine

/-! ### The fields of a response word (spec/30_encoding.md R55) -/

theorem status_fields (code val : Byte) (rdy : BitVec 1) :
    statusCode (responseWord code val rdy) = code ∧ statusVal (responseWord code val rdy) = val ∧
    statusRdy (responseWord code val rdy) = rdy ∧ statusReserved (responseWord code val rdy) = 0 := by
  refine ⟨?_, ?_, ?_, ?_⟩ <;> simp only [statusCode, statusVal, statusRdy, statusReserved, responseWord] <;> ext i hi <;>
    simp only [BitVec.getElem_extractLsb', BitVec.getLsbD_append] <;>
    split_ifs <;> first | omega | (simp only [BitVec.getLsbD_eq_getElem, *]; congr 1; try omega) | simp_all

@[simp] theorem statusCode_responseWord (code val : Byte) (rdy : BitVec 1) : statusCode (responseWord code val rdy) = code :=
  (status_fields code val rdy).1

@[simp] theorem statusVal_responseWord (code val : Byte) (rdy : BitVec 1) : statusVal (responseWord code val rdy) = val :=
  (status_fields code val rdy).2.1

@[simp] theorem statusRdy_responseWord (code val : Byte) (rdy : BitVec 1) : statusRdy (responseWord code val rdy) = rdy :=
  (status_fields code val rdy).2.2.1

@[simp] theorem statusReserved_responseWord (code val : Byte) (rdy : BitVec 1) : statusReserved (responseWord code val rdy) = 0 :=
  (status_fields code val rdy).2.2.2

/-! ### The commands -/

/-- The state a successful LOADKEY leaves (40_key_schedule.md R60). -/
def loadkeyResult (a : Int) (m : State) : State :=
  respond .ok 0 ((clearMessageState (loadKeySchedule (fun j => m.om.read (a.toNat + j)) m)).setLifecycle .ready)

/-- The state a successful UPDATE leaves (41_block_accumulator.md R70). -/
def updateResult (a l : Int) (m : State) : State := respond .ok 0 (absorbBytes m (m.om.readBytes a.toNat l.toNat))

/-- The state a successful FINAL leaves (42_finalizer.md R80). -/
def finalResult (a : Int) (m : State) : State :=
  respond .ok 0 (clearMessageState (m.setMemory (m.om.writeWords4 a.toNat (tagWords m))))

/-- Everything LOADKEY can answer. -/
theorem execLoadkey_eq (a l : Int) (m : State) :
    exec (.loadkey a l) m = .next (if m.st = .ready then failedWith 4 m else if l ≠ 32 then failedWith 1 m
      else if a < 0 ∨ a + 32 > m.om.size then failedWith 2 m else loadkeyResult a m) := by
  show execLoadkey a l m = _
  unfold execLoadkey
  simp only [raise_eq_failedWith, CompletionCode.number, KeyLengthWrong, KeyWindowOutside, Config.keyBytes, Nat.cast_ofNat]
  split_ifs <;> rfl

/-- Everything UPDATE can answer. -/
theorem execUpdate_eq (a l : Int) (m : State) :
    exec (.update a l) m = if m.st = .uninitialized then .next (failedWith 4 m)
      else if a < 0 ∨ l < 0 ∨ a + l > m.om.size then .next (failedWith 2 m)
      else if m.off = 16 ∧ l ≠ 0 then .fault .bufferFull else .next (updateResult a l m) := by
  show execUpdate a l m = _
  unfold execUpdate
  simp only [raise_eq_failedWith, CompletionCode.number, MessageWindowOutside]
  split_ifs <;> rfl

/-- Everything FINAL can answer. -/
theorem execFinal_eq (a : Int) (m : State) :
    exec (.final a) m = if m.st = .uninitialized then .next (failedWith 4 m)
      else if a < 0 ∨ a > m.om.size then .next (failedWith 2 m)
      else if a + 16 > m.om.size then .next (failedWith 3 m)
      else if m.off = 16 then .fault .bufferFull else .next (finalResult a m) := by
  show execFinal a m = _
  unfold execFinal
  simp only [raise_eq_failedWith, CompletionCode.number, TagOffsetMalformed, TagWindowShort, Config.tagBytes, Nat.cast_ofNat]
  split_ifs <;> rfl

theorem execReset_eq (m : State) : exec .reset m = .next (respond .ok 0 (clearMessageState m)) := rfl

theorem execTaglen_eq (m : State) : exec .taglen m = .next (respond .ok 16 m) := rfl

theorem execDispose_eq (m : State) : exec .dispose m = .next (respond .ok 0 (clearKeySchedule (clearMessageState m))) := rfl

theorem off_ne_sixteen {m : State} (h : m.off.val ≤ 15) : m.off ≠ 16 := fun e => by
  rw [e] at h; exact absurd h (by decide)

/-- What a command that answers a next state has done: failed with a code, or had its effect. -/
theorem exec_cases {i : Instr} {m t : State} (h : exec i m = .next t) :
    (∃ code : Byte, (code = 1 ∨ code = 2 ∨ code = 3 ∨ code = 4) ∧ t = failedWith code m) ∨
    (∃ a, i = .loadkey a 32 ∧ m.st = .uninitialized ∧ 0 ≤ a ∧ a + 32 ≤ m.om.size ∧ t = loadkeyResult a m) ∨
    (∃ a l, i = .update a l ∧ m.st = .ready ∧ 0 ≤ a ∧ 0 ≤ l ∧ a + l ≤ m.om.size ∧ (m.off ≠ 16 ∨ l = 0) ∧ t = updateResult a l m) ∨
    (∃ a, i = .final a ∧ m.st = .ready ∧ 0 ≤ a ∧ a + 16 ≤ m.om.size ∧ m.off ≠ 16 ∧ t = finalResult a m) ∨
    (i = .reset ∧ t = respond .ok 0 (clearMessageState m)) ∨ (i = .taglen ∧ t = respond .ok 16 m) ∨
    (i = .dispose ∧ t = respond .ok 0 (clearKeySchedule (clearMessageState m))) := by
  cases i with
  | loadkey a l =>
    rw [execLoadkey_eq] at h
    split_ifs at h with hst hl hw <;> cases h
    · exact .inl ⟨4, by simp, rfl⟩
    · exact .inl ⟨1, by simp, rfl⟩
    · exact .inl ⟨2, by simp, rfl⟩
    · have hst' : m.st = .uninitialized := by cases hm : m.st <;> simp_all
      have : l = 32 := by omega
      subst this
      exact .inr (.inl ⟨a, rfl, hst', by omega, by omega, rfl⟩)
  | update a l =>
    rw [execUpdate_eq] at h
    split_ifs at h with hst hw ho <;> cases h
    · exact .inl ⟨4, by simp, rfl⟩
    · exact .inl ⟨2, by simp, rfl⟩
    · have hst' : m.st = .ready := by cases hm : m.st <;> simp_all
      have ho' : m.off ≠ 16 ∨ l = 0 := by
        by_cases h16 : m.off = 16
        · exact .inr (by_contra fun hl => ho ⟨h16, hl⟩)
        · exact .inl h16
      exact .inr (.inr (.inl ⟨a, l, rfl, hst', by omega, by omega, by omega, ho', rfl⟩))
  | final a =>
    rw [execFinal_eq] at h
    split_ifs at h with hst hw hs ho <;> cases h
    · exact .inl ⟨4, by simp, rfl⟩
    · exact .inl ⟨2, by simp, rfl⟩
    · exact .inl ⟨3, by simp, rfl⟩
    · have hst' : m.st = .ready := by cases hm : m.st <;> simp_all
      exact .inr (.inr (.inr (.inl ⟨a, rfl, hst', by omega, by omega, ho, rfl⟩)))
  | reset => cases h; exact .inr (.inr (.inr (.inr (.inl ⟨rfl, rfl⟩))))
  | taglen => cases h; exact .inr (.inr (.inr (.inr (.inr (.inl ⟨rfl, rfl⟩)))))
  | dispose => cases h; exact .inr (.inr (.inr (.inr (.inr (.inr ⟨rfl, rfl⟩)))))

/-- A fault comes only from a state that rests at off = 16. -/
theorem exec_fault {i : Instr} {m : State} {f : Fault} (h : exec i m = .fault f) : m.off = 16 := by
  cases i with
  | loadkey a l => rw [execLoadkey_eq] at h; cases h
  | update a l => rw [execUpdate_eq] at h; split_ifs at h with hst hw ho; exact ho.1
  | final a => rw [execFinal_eq] at h; split_ifs at h with hst hw hs ho; exact ho
  | reset => cases h
  | taglen => cases h
  | dispose => cases h

/-- No command is refused. -/
theorem exec_not_refused (i : Instr) (m : State) (e : Refusal) : exec i m ≠ .refused e := by
  intro h
  cases i with
  | loadkey a l => rw [execLoadkey_eq] at h; cases h
  | update a l => rw [execUpdate_eq] at h; split_ifs at h
  | final a => rw [execFinal_eq] at h; split_ifs at h
  | reset => cases h
  | taglen => cases h
  | dispose => cases h

/-- A command that does not rest at off = 16 completes. -/
theorem exec_completes (i : Instr) {m : State} (h : m.off.val ≤ 15) : ∃ t, exec i m = .next t := by
  cases hx : exec i m with
  | next t => exact ⟨t, rfl⟩
  | fault f => exact absurd (exec_fault hx) (off_ne_sixteen h)
  | refused e => exact absurd hx (exec_not_refused i m e)

/-! ### A command word, an action of the host, a step -/

theorem acceptCommand_command {cw : CommandWord} {i : Instr} (h : decode cw = .command i) (m : State) :
    acceptCommand cw m = exec i m := by simp only [acceptCommand, h]

theorem acceptCommand_illegal {cw : CommandWord} {why : IllegalWord} (h : decode cw = .illegal why) (m : State) :
    acceptCommand cw m = .next (failedWith 5 m) := by
  simp only [acceptCommand, h, illegalCommand_eq_failedWith]

/-- Everything an action of the host can do that answers a next state. -/
theorem perform_cases {act : HostAction} {m t : State} (h : perform act m = .next t) :
    (∃ cw, act = .command cw ∧ acceptCommand cw m = .next t) ∨
    (∃ a bytes, act = .hostWrite a bytes ∧ 0 ≤ a ∧ a + (bytes.length : Int) ≤ m.om.size ∧
      t = m.setMemory (m.om.writeBytes a.toNat bytes)) ∨
    (∃ a n, act = .hostRead a n ∧ 0 ≤ a ∧ a + (n : Int) ≤ m.om.size ∧ t = observe (.memory (m.om.readBytes a.toNat n)) m) ∨
    (∃ n, act = .readRegister n ∧ t = observe (.register (registerValue n m)) m) ∨
    (∃ n v, act = .writeRegister n v ∧ t = m) ∨
    (∃ contents, act = .hardwareReset contents ∧
      t = State.afterReset (Memory.ofCells m.om.size contents) m.commandPort m.observed) := by
  cases act with
  | command cw => exact .inl ⟨cw, rfl, h⟩
  | hostWrite a bytes =>
    simp only [perform, hostWrite, HostWindowOutside] at h
    split_ifs at h with hw
    cases h
    exact .inr (.inl ⟨a, bytes, rfl, by omega, by omega, rfl⟩)
  | hostRead a n =>
    simp only [perform, hostRead, HostWindowOutside] at h
    split_ifs at h with hw
    cases h
    exact .inr (.inr (.inl ⟨a, n, rfl, by omega, by omega, rfl⟩))
  | readRegister n => cases h; exact .inr (.inr (.inr (.inl ⟨n, rfl, rfl⟩)))
  | writeRegister n v => cases h; exact .inr (.inr (.inr (.inr (.inl ⟨n, v, rfl, rfl⟩))))
  | hardwareReset contents => cases h; exact .inr (.inr (.inr (.inr (.inr ⟨contents, rfl, rfl⟩))))

/-- Everything a step can do: wait, or perform the oldest pending action. -/
theorem step_cases (m : State) :
    (m.commandPort = [] ∧ step m = .next m) ∨
    ∃ act rest, m.commandPort = act :: rest ∧ step m = perform act { m with commandPort := rest } := by
  unfold step performNext
  cases h : m.commandPort with
  | nil => exact .inl ⟨rfl, rfl⟩
  | cons act rest => exact .inr ⟨act, rest, rfl, rfl⟩

end Sys2Proof.Machine
end

