-- ==== Sys2Proof/Laws/Numbers.lean ====
section
/-! SUPPORT. The numbers that words, byte lists, limbs and masks stand for: the bit operations of the rules as arithmetic over Nat. -/

namespace Sys2Proof.Machine

/-! ### Concatenation and bytes -/

theorem toNat_append_eq {m n : Nat} (x : BitVec m) (y : BitVec n) : (x ++ y).toNat = x.toNat * 2 ^ n + y.toNat := by
  rw [BitVec.toNat_append, ← Nat.shiftLeft_add_eq_or_of_lt y.isLt, Nat.shiftLeft_eq]

theorem le32_toNat (b : Nat → Byte) (i : Nat) :
    (le32 b i).toNat = (b i).toNat + 2 ^ 8 * (b (i + 1)).toNat + 2 ^ 16 * (b (i + 2)).toNat + 2 ^ 24 * (b (i + 3)).toNat := by
  simp only [le32, toNat_append_eq]
  ring

theorem firstBytes_length (b : Nat → Byte) (n : Nat) : (firstBytes b n).length = n := by simp [firstBytes]

theorem firstBytes_succ (b : Nat → Byte) (n : Nat) : firstBytes b (n + 1) = b 0 :: firstBytes (fun j => b (j + 1)) n := by
  simp [firstBytes, List.range_succ_eq_map, List.map_map, Function.comp_def]

theorem firstBytes_zero (b : Nat → Byte) : firstBytes b 0 = [] := rfl

theorem leNat_append (xs ys : List Byte) : leNat (xs ++ ys) = leNat xs + 2 ^ (8 * xs.length) * leNat ys := by
  induction xs with
  | nil => simp [leNat]
  | cons x xs ih => simp only [List.cons_append, leNat, ih, List.length_cons, Nat.mul_succ, pow_add]; ring

theorem leNat_lt (xs : List Byte) : leNat xs < 2 ^ (8 * xs.length) := by
  induction xs with
  | nil => simp [leNat]
  | cons x xs ih =>
    have := x.isLt
    simp only [leNat, List.length_cons, Nat.mul_succ, pow_add]
    omega

/-- The 128-bit number of sixteen bytes, as four words. -/
theorem leNat_firstBytes_sixteen (b : Nat → Byte) :
    leNat (firstBytes b 16) = (le32 b 0).toNat + 2 ^ 32 * (le32 b 4).toNat + 2 ^ 64 * (le32 b 8).toNat + 2 ^ 96 * (le32 b 12).toNat := by
  simp only [le32_toNat, firstBytes_succ, firstBytes_zero, leNat, Nat.reduceAdd]
  ring

theorem readBytes_eq_firstBytes (m : Memory) (a n : Nat) : m.readBytes a n = firstBytes (fun j => m.read (a + j)) n := rfl

theorem leBytes_length (n v : Nat) : (leBytes n v).length = n := by
  induction n generalizing v with
  | zero => rfl
  | succ n ih => simp [leBytes, ih]

theorem leBytes_leNat (xs : List Byte) : leBytes xs.length (leNat xs) = xs := by
  induction xs with
  | nil => rfl
  | cons x xs ih =>
    have hx := x.isLt
    simp only [List.length_cons, leBytes, leNat]
    rw [show (x.toNat + 2 ^ 8 * leNat xs) / 2 ^ 8 = leNat xs by omega, ih]
    congr 1
    apply BitVec.eq_of_toNat_eq
    rw [BitVec.toNat_ofNat]
    omega

theorem wordBytes_leNat (w : Word) : leNat (wordBytes w) = w.toNat := by
  have := w.isLt
  simp only [wordBytes, leNat, BitVec.extractLsb'_toNat, Nat.shiftRight_eq_div_pow]
  omega

/-! ### Masks and shifts -/

theorem and_limbMask_toNat (x : Word) : (x &&& limbMask).toNat = x.toNat % 2 ^ 26 := by
  rw [BitVec.toNat_and, show limbMask.toNat = 2 ^ 26 - 1 from rfl, Nat.and_two_pow_sub_one_eq_mod]

theorem lowLimb_toNat (x : DWord) : (lowLimb x).toNat = x.toNat % 2 ^ 26 := by
  rw [lowLimb, BitVec.toNat_setWidth, BitVec.toNat_and, show limbMask64.toNat = 2 ^ 26 - 1 from rfl,
    Nat.and_two_pow_sub_one_eq_mod]
  omega

/-- A disjoint `|||` of a right shift and a left shift, as a number: the straddling limbs of R61 and R72. -/
theorem straddle_toNat (x y : Word) (i j : Nat) (hij : i + j = 32) :
    ((x >>> i) ||| (y <<< j)).toNat = x.toNat / 2 ^ i + y.toNat * 2 ^ j % 2 ^ 32 := by
  rw [BitVec.toNat_or, BitVec.toNat_ushiftRight, BitVec.toNat_shiftLeft, Nat.shiftRight_eq_div_pow, Nat.shiftLeft_eq]
  have hx : x.toNat / 2 ^ i < 2 ^ j := by
    rw [Nat.div_lt_iff_lt_mul (Nat.two_pow_pos i), ← pow_add, Nat.add_comm j i, hij]; exact x.isLt
  have hy : y.toNat * 2 ^ j % 2 ^ 32 = 2 ^ j * (y.toNat % 2 ^ i) := by
    rw [show (2 : Nat) ^ 32 = 2 ^ j * 2 ^ i by rw [← pow_add, Nat.add_comm j i, hij], Nat.mul_comm y.toNat, Nat.mul_mod_mul_left]
  rw [hy, Nat.or_comm, ← Nat.two_pow_add_eq_or_of_lt hx]
  ring

/-- A mask within 26 bits sees only the low 26 bits. -/
theorem and_mask_mod (x c : Nat) (hc : c < 2 ^ 26) : x &&& c = (x % 2 ^ 26) &&& c := by
  conv_lhs => rw [← Nat.mod_eq_of_lt (a := x &&& c) (b := 2 ^ 26) (lt_of_le_of_lt Nat.and_le_right hc)]
  rw [Nat.and_mod_two_pow, Nat.mod_eq_of_lt hc]

end Sys2Proof.Machine
end

