-- ==== Sys2Proof/Laws/Machine.lean ====
section
/-! SUPPORT. Once for each operation of the engine, what it answers: the commands on good operands, one byte absorbed, the padded
buffer, the widened product, the selection and the sum with carry of the Finalizer. Later proofs cite these. -/

namespace Sys2Proof.Machine

/-! ### Byte lists -/

theorem firstBytes_append (b : Nat → Byte) (n k : Nat) : firstBytes b (n + k) = firstBytes b n ++ firstBytes (fun j => b (n + j)) k := by
  simp [firstBytes, List.range_add, List.map_map, Function.comp_def]

theorem firstBytes_congr {b c : Nat → Byte} {n : Nat} (h : ∀ j, j < n → b j = c j) : firstBytes b n = firstBytes c n :=
  List.map_congr_left fun j hj => h j (List.mem_range.1 hj)

theorem blockNumber_full {block : List Byte} (h : block.length = 16) : blockNumber block = leNat block + 2 ^ 128 := by
  unfold blockNumber; rw [h, show 8 * 16 = 128 by norm_num]

theorem bufByte_of_lt (buf : Vector Byte 16) {j : Nat} (h : j < 16) : bufByte buf j = buf[j] := by simp [bufByte, h]

/-! ### The key schedule (spec/40_key_schedule.md) -/

theorem clamped_le {x c : Word} (h : x &&& ~~~c = 0) : x.toNat ≤ c.toNat := by
  have : x = x &&& c := by
    ext i hi
    have := congrArg (fun v => v[i]) h
    simp only [BitVec.getElem_and, BitVec.getElem_not] at this ⊢
    cases hx : x[i] <;> simp_all
  rw [this, BitVec.toNat_and]
  exact Nat.and_le_right

/-- R12's bounds from R12's masks. -/
theorem clamped_bounds {r : Limbs} (h : KeyClamped r) : r.x0.toNat ≤ 0x03FFFFFF ∧ r.x1.toNat ≤ 0x03FFFF03 ∧
    r.x2.toNat ≤ 0x03FFC0FF ∧ r.x3.toNat ≤ 0x03F03FFF ∧ r.x4.toNat ≤ 0x000FFFFF :=
  ⟨clamped_le h.1, clamped_le h.2.1, clamped_le h.2.2.1, clamped_le h.2.2.2.1, clamped_le h.2.2.2.2⟩

/-! ### Absorbing (spec/41_block_accumulator.md) -/

theorem mul64_toNat (x y : Word) : (mul64 x y).toNat = x.toNat * y.toNat := by
  have hx := x.isLt
  have hy := y.isLt
  simp only [mul64, Word.widen, BitVec.toNat_mul, BitVec.toNat_setWidth]
  rw [Nat.mod_eq_of_lt (a := x.toNat) (by omega), Nat.mod_eq_of_lt (a := y.toNat) (by omega)]
  refine Nat.mod_eq_of_lt (lt_of_le_of_lt (Nat.mul_le_mul (Nat.le_sub_one_of_lt hx) (Nat.le_sub_one_of_lt hy)) (by norm_num))

/-- A row of R73 is the integer sum of its five terms when that sum fits 64 bits. -/
theorem row_toNat (a b c d e : DWord) (h : a.toNat + b.toNat + c.toNat + d.toNat + e.toNat < 2 ^ 64) :
    (a + b + c + d + e).toNat = a.toNat + b.toNat + c.toNat + d.toNat + e.toNat := by
  simp only [BitVec.toNat_add]; omega

theorem nextOff_val {off : Fin 17} (h : off.val ≤ 15) : (nextOff off).val = off.val + 1 := by
  unfold nextOff
  rw [Fin.val_add]
  simp only [Fin.val_one]
  omega

/-- One byte absorbed: buffered and counted, or, the sixteenth, buffered and folded at once. -/
theorem absorbByte_cases {m : State} (h : m.off.val ≤ 15) (b : Byte) :
    (m.off.val < 15 ∧ absorbByte m b = m.setBuffer (m.buf.setIfInBounds m.off b) (nextOff m.off)) ∨
    (m.off.val = 15 ∧ absorbByte m b =
      (m.setAccumulator (foldBlock true (bufByte (m.buf.setIfInBounds m.off b)) m.r m.s m.h)).setBuffer
        (m.buf.setIfInBounds m.off b) 0) := by
  have h16 : nextOff m.off = 16 ↔ m.off.val = 15 := by
    rw [Fin.ext_iff, nextOff_val h]
    show m.off.val + 1 = 16 ↔ _
    omega
  unfold absorbByte foldIfFull bufferByte
  simp only [State.setBuffer_off, h16]
  split
  · next hh =>
    refine .inr ⟨hh, ?_⟩
    unfold blockFold
    simp only [State.setBuffer_buf, State.setBuffer_h, State.setBuffer_r, State.setBuffer_s]
    rfl
  · exact .inl ⟨by omega, rfl⟩

theorem absorbByte_off_le {m : State} (h : m.off.val ≤ 15) (b : Byte) : (absorbByte m b).off.val ≤ 15 := by
  rcases absorbByte_cases h b with ⟨h1, h2⟩ | ⟨-, h2⟩ <;> rw [h2, State.setBuffer_off]
  · rw [nextOff_val h]; omega
  · decide

/-! ### The Finalizer (spec/42_finalizer.md) -/

theorem bufByte_padBuffer (buf : Vector Byte 16) (off : Nat) {j : Nat} (h : j < 16) :
    bufByte (padBuffer buf off) j = if j < off then bufByte buf j else if j = off then 1 else 0 := by
  rw [bufByte_of_lt _ h]
  unfold padBuffer
  simp [bufByte_of_lt _ h]

theorem flushPartial_h (m : State) : (flushPartial m).h =
    if m.off.val = 0 then m.h else foldBlock false (bufByte (padBuffer m.buf m.off.val)) m.r m.s m.h := by
  have : m.off = 0 ↔ m.off.val = 0 := by rw [Fin.ext_iff]; rfl
  unfold flushPartial
  simp only [this]
  split
  · rfl
  · exact foldPartial_h m

theorem selectWord_zero (h g : Word) : selectWord 0 h g = h := by
  unfold selectWord
  ext i hi
  simp only [BitVec.getElem_or, BitVec.getElem_and, BitVec.getElem_not]
  simp

theorem selectWord_allOnes (h g : Word) : selectWord (BitVec.allOnes 32) h g = g := by
  unfold selectWord
  ext i hi
  simp only [BitVec.getElem_or, BitVec.getElem_and, BitVec.getElem_not, BitVec.getElem_allOnes]
  simp

theorem addWithCarry_toNat (f k : Word) {carry : BitVec 33} (h : carry.toNat ≤ 1) :
    (addWithCarry f k carry).toNat = f.toNat + k.toNat + carry.toNat := by
  have := f.isLt
  have := k.isLt
  simp only [addWithCarry, BitVec.toNat_add, BitVec.toNat_setWidth]
  omega

/-! ### Commands on good operands -/

theorem respond_ready {m : State} (h : m.st = .ready) : respond .ok 0 m =
    { m with status := 0x00010000, observed := m.observed ++ [.response 0x00010000] } := by
  simp only [respond, State.answer, h]; rfl

theorem loadkey_completes {a : Int} {m : State} (hst : m.st = .uninitialized) (h0 : 0 ≤ a) (h1 : a + 32 ≤ m.om.size) :
    exec (.loadkey a 32) m = .next (loadkeyResult a m) := by
  rw [execLoadkey_eq, if_neg (by rw [hst]; decide), if_neg (by decide), if_neg (by omega)]

theorem update_completes {a l : Int} {m : State} (hst : m.st = .ready) (hoff : m.off.val ≤ 15) (h0 : 0 ≤ a) (hl : 0 ≤ l)
    (h1 : a + l ≤ m.om.size) : exec (.update a l) m = .next (updateResult a l m) := by
  rw [execUpdate_eq, if_neg (by rw [hst]; decide), if_neg (by omega), if_neg fun h => off_ne_sixteen hoff h.1]

theorem final_completes {a : Int} {m : State} (hst : m.st = .ready) (hoff : m.off.val ≤ 15) (h0 : 0 ≤ a)
    (h1 : a + 16 ≤ m.om.size) : exec (.final a) m = .next (finalResult a m) := by
  rw [execFinal_eq, if_neg (by rw [hst]; decide), if_neg (by omega), if_neg (by omega), if_neg (off_ne_sixteen hoff)]

@[simp] theorem finalResult_om (a : Int) (m : State) : (finalResult a m).om = m.om.writeWords4 a.toNat (tagWords m) := by
  simp only [finalResult, respond_om, clearMessageState_om, State.setMemory_om]

/-! ### What a successful command leaves, field by field -/

@[simp] theorem loadkeyResult_r (a : Int) (m : State) : (loadkeyResult a m).r = clamp (fun j => m.om.read (a.toNat + j)) := by
  simp [loadkeyResult]

@[simp] theorem loadkeyResult_s (a : Int) (m : State) : (loadkeyResult a m).s = fiveTimes (clamp (fun j => m.om.read (a.toNat + j))) := by
  simp [loadkeyResult]

@[simp] theorem loadkeyResult_k (a : Int) (m : State) : (loadkeyResult a m).k = maskWords (fun j => m.om.read (a.toNat + j)) := by
  simp [loadkeyResult]

@[simp] theorem loadkeyResult_h (a : Int) (m : State) : (loadkeyResult a m).h = ⟨0, 0, 0, 0, 0⟩ := by
  simp [loadkeyResult]

@[simp] theorem loadkeyResult_buf (a : Int) (m : State) : (loadkeyResult a m).buf = Vector.replicate 16 0 := by
  simp [loadkeyResult]

@[simp] theorem loadkeyResult_off (a : Int) (m : State) : (loadkeyResult a m).off = 0 := by
  simp [loadkeyResult]

@[simp] theorem loadkeyResult_st (a : Int) (m : State) : (loadkeyResult a m).st = .ready := by
  simp [loadkeyResult]

@[simp] theorem loadkeyResult_status (a : Int) (m : State) : (loadkeyResult a m).status = responseWord 0 0 1 := by
  simp [loadkeyResult, CompletionCode.number, Lifecycle.bit]

@[simp] theorem loadkeyResult_om (a : Int) (m : State) : (loadkeyResult a m).om = m.om := by
  simp [loadkeyResult, loadKeySchedule]

@[simp] theorem loadkeyResult_commandPort (a : Int) (m : State) : (loadkeyResult a m).commandPort = m.commandPort := by
  simp [loadkeyResult, loadKeySchedule]

@[simp] theorem loadkeyResult_observed (a : Int) (m : State) : (loadkeyResult a m).observed = m.observed ++ [.response (responseWord 0 0 1)] := by
  simp [loadkeyResult, CompletionCode.number, Lifecycle.bit, loadKeySchedule]

@[simp] theorem updateResult_r (a l : Int) (m : State) : (updateResult a l m).r = m.r := by
  simp [updateResult]

@[simp] theorem updateResult_s (a l : Int) (m : State) : (updateResult a l m).s = m.s := by
  simp [updateResult]

@[simp] theorem updateResult_k (a l : Int) (m : State) : (updateResult a l m).k = m.k := by
  simp [updateResult]

@[simp] theorem updateResult_h (a l : Int) (m : State) : (updateResult a l m).h = (absorbBytes m (m.om.readBytes a.toNat l.toNat)).h := by
  simp [updateResult]

@[simp] theorem updateResult_buf (a l : Int) (m : State) : (updateResult a l m).buf = (absorbBytes m (m.om.readBytes a.toNat l.toNat)).buf := by
  simp [updateResult]

@[simp] theorem updateResult_off (a l : Int) (m : State) : (updateResult a l m).off = (absorbBytes m (m.om.readBytes a.toNat l.toNat)).off := by
  simp [updateResult]

@[simp] theorem updateResult_st (a l : Int) (m : State) : (updateResult a l m).st = m.st := by
  simp [updateResult]

@[simp] theorem updateResult_status (a l : Int) (m : State) : (updateResult a l m).status = responseWord 0 0 m.st.bit := by
  simp [updateResult, CompletionCode.number]

@[simp] theorem updateResult_om (a l : Int) (m : State) : (updateResult a l m).om = m.om := by
  simp [updateResult]

@[simp] theorem updateResult_commandPort (a l : Int) (m : State) : (updateResult a l m).commandPort = m.commandPort := by
  simp [updateResult]

@[simp] theorem updateResult_observed (a l : Int) (m : State) : (updateResult a l m).observed = m.observed ++ [.response (responseWord 0 0 m.st.bit)] := by
  simp [updateResult, CompletionCode.number]

@[simp] theorem finalResult_r (a : Int) (m : State) : (finalResult a m).r = m.r := by
  simp [finalResult]

@[simp] theorem finalResult_s (a : Int) (m : State) : (finalResult a m).s = m.s := by
  simp [finalResult]

@[simp] theorem finalResult_k (a : Int) (m : State) : (finalResult a m).k = m.k := by
  simp [finalResult]

@[simp] theorem finalResult_h (a : Int) (m : State) : (finalResult a m).h = ⟨0, 0, 0, 0, 0⟩ := by
  simp [finalResult]

@[simp] theorem finalResult_buf (a : Int) (m : State) : (finalResult a m).buf = Vector.replicate 16 0 := by
  simp [finalResult]

@[simp] theorem finalResult_off (a : Int) (m : State) : (finalResult a m).off = 0 := by
  simp [finalResult]

@[simp] theorem finalResult_st (a : Int) (m : State) : (finalResult a m).st = m.st := by
  simp [finalResult]

@[simp] theorem finalResult_status (a : Int) (m : State) : (finalResult a m).status = responseWord 0 0 m.st.bit := by
  simp [finalResult, CompletionCode.number]

@[simp] theorem finalResult_commandPort (a : Int) (m : State) : (finalResult a m).commandPort = m.commandPort := by
  simp [finalResult]

@[simp] theorem finalResult_observed (a : Int) (m : State) : (finalResult a m).observed = m.observed ++ [.response (responseWord 0 0 m.st.bit)] := by
  simp [finalResult, CompletionCode.number]

end Sys2Proof.Machine
end

