-- ==== Sys2Proof/Laws/PerInstr.lean ====
section
/-! SUPPORT. Per instruction: the fields of its command word (spec/30_encoding.md R50 to R53). -/

namespace Sys2Proof.Laws.EncodeFields

/-- R53: OP of each command. -/
def opcode : Instr → BitVec 8
  | .loadkey _ _ => 0x01
  | .update _ _ => 0x02
  | .final _ => 0x03
  | .reset => 0x04
  | .taglen => 0x05
  | .dispose => 0x06

/-- R51, R52: A and L of each command, zero in a format that does not use them. -/
def immediates : Instr → Int × Int
  | .loadkey a l => (a, l)
  | .update a l => (a, l)
  | .final a => (a, 0)
  | .reset => (0, 0)
  | .taglen => (0, 0)
  | .dispose => (0, 0)

/-- The word of the instruction has its OP, RSV = 0, and its immediates in A and L, two's complement. -/
def Statement (i : Instr) : Prop :=
  WellFormed i = true →
    CommandWord.op (encode i) = opcode i ∧ CommandWord.rsv (encode i) = 0 ∧
    sext32 (CommandWord.offsetField (encode i)) = (immediates i).1 ∧ sext32 (CommandWord.lengthField (encode i)) = (immediates i).2

theorem fields_of {i : Instr} (he : encode i = assemble (opcode i) (immediates i).1 (immediates i).2)
    (ha : ImmediateInRange (immediates i).1) (hl : ImmediateInRange (immediates i).2) :
    CommandWord.op (encode i) = opcode i ∧ CommandWord.rsv (encode i) = 0 ∧
    sext32 (CommandWord.offsetField (encode i)) = (immediates i).1 ∧
    sext32 (CommandWord.lengthField (encode i)) = (immediates i).2 := by
  obtain ⟨h1, h2, h3, h4⟩ := fields_assemble (opcode i) (immediates i).1 (immediates i).2
  rw [he]
  exact ⟨h1, h2, by rw [h3]; exact sext32_ofInt ha, by rw [h4]; exact sext32_ofInt hl⟩

theorem loadkey (a l : Int) : Statement (.loadkey a l) := fun h => by
  simp only [WellFormed, Bool.and_eq_true, decide_eq_true_eq] at h
  exact fields_of rfl h.1 h.2

theorem update (a l : Int) : Statement (.update a l) := fun h => by
  simp only [WellFormed, Bool.and_eq_true, decide_eq_true_eq] at h
  exact fields_of rfl h.1 h.2

theorem final (a : Int) : Statement (.final a) := fun h => by
  simp only [WellFormed, decide_eq_true_eq] at h
  exact fields_of rfl h (by show ImmediateInRange 0; decide)

theorem reset : Statement .reset := fun _ => fields_of rfl (by decide) (by decide)

theorem taglen : Statement .taglen := fun _ => fields_of rfl (by decide) (by decide)

theorem dispose : Statement .dispose := fun _ => fields_of rfl (by decide) (by decide)

end Sys2Proof.Laws.EncodeFields
end

