-- ==== Sys2Proof/Tests/Slice0.lean ====
section
/-! SUPPORT. Tests. Expected results are those of spec/95_test_vectors.md (named V, P there) or of the rule named; and for every
obligation with hypotheses a concrete state and operands that meet all of them together. -/

namespace Sys2Proof.Tests

open Sys2Proof Sys2Proof.Machine

/-! ### States the tests start from -/

/-- Bytes laid out from an address on. -/
def cellsAt (a : Nat) (bytes : List Byte) : List Host.Cell := bytes.zipIdx.map fun b => (a + b.2, b.1)

/-- S1's key (95_test_vectors.md V1). -/
def rfcKey : List Byte :=
  [0x85, 0xd6, 0xbe, 0x78, 0x57, 0x55, 0x6d, 0x33, 0x7f, 0x44, 0x52, 0xfe, 0x42, 0xd5, 0x06, 0xa8] ++
  [0x01, 0x03, 0x80, 0x8a, 0xfb, 0x0d, 0xb2, 0xfd, 0x4a, 0xbf, 0xf6, 0xaf, 0x41, 0x49, 0xf5, 0x1b]

/-- S1's message, 34 bytes. -/
def rfcMessage : List Byte :=
  [0x43, 0x72, 0x79, 0x70, 0x74, 0x6f, 0x67, 0x72, 0x61, 0x70, 0x68, 0x69, 0x63, 0x20, 0x46, 0x6f] ++
  [0x72, 0x75, 0x6d, 0x20, 0x52, 0x65, 0x73, 0x65, 0x61, 0x72, 0x63, 0x68, 0x20, 0x47, 0x72, 0x6f] ++ [0x75, 0x70]

/-- P1's operand memory after the host's writes. -/
def rfcMemory : Memory := ⟨256, cellsAt 0 rfcKey ++ cellsAt 48 rfcMessage⟩

/-- An engine without a key. -/
def unkeyed : State := State.afterReset rfcMemory [] []

/-- An engine with V1's key schedule and a cleared message state. -/
def keyed : State :=
  { unkeyed with
    r := ⟨0x00bed685, 0x03555502, 0x0047c036, 0x01003949, 0x000806d5⟩
    s := ⟨0x10aaa90a, 0x0166c10e, 0x05011e6d, 0x00282229⟩
    k := ⟨0x8a800301, 0xfdb20dfb, 0xaff6bf4a, 0x1bf54941⟩
    st := .ready
    status := 0x00010000 }

/-- The same with n pending bytes, all 0x75, and V8's accumulator after block 1. -/
def midMessage (n : Fin 17) : State :=
  { keyed with
    h := ⟨0x004b30de, 0x03ed3a8d, 0x03fa7ccc, 0x008ec0cd, 0x02d8adaf⟩
    buf := Vector.replicate 16 0x75
    off := n }

/-- What the tests look at in the state an instruction leaves. -/
def after {α : Type} (o : Host.Outcome State Fault Refusal) (f : State → α) : Option α :=
  match o with
  | .next t => some (f t)
  | .fault _ => none
  | .refused _ => none

/-- Why a step is refused, if it is. -/
def refusal (o : Host.Outcome State Fault Refusal) : Option Refusal :=
  match o with
  | .next _ => none
  | .fault _ => none
  | .refused e => some e

/-! ### Well-formedness: an ill-formed term for each check (30_encoding.md R52) -/

theorem test_wf_loadkey_offset_high : WellFormed (.loadkey (2 ^ 31) 32) = false := by decide
theorem test_wf_loadkey_offset_low : WellFormed (.loadkey (-(2 ^ 31) - 1) 32) = false := by decide
theorem test_wf_loadkey_length_high : WellFormed (.loadkey 0 (2 ^ 31)) = false := by decide
theorem test_wf_loadkey_length_low : WellFormed (.loadkey 0 (-(2 ^ 31) - 1)) = false := by decide
theorem test_wf_update_offset_high : WellFormed (.update (2 ^ 31) 0) = false := by decide
theorem test_wf_update_offset_low : WellFormed (.update (-(2 ^ 31) - 1) 0) = false := by decide
theorem test_wf_update_length_high : WellFormed (.update 0 (2 ^ 31)) = false := by decide
theorem test_wf_update_length_low : WellFormed (.update 0 (-(2 ^ 31) - 1)) = false := by decide
theorem test_wf_final_offset_high : WellFormed (.final (2 ^ 31)) = false := by decide
theorem test_wf_final_offset_low : WellFormed (.final (-(2 ^ 31) - 1)) = false := by decide

/-! ### Decoding: words written out from 30_encoding.md R50 and R53 (`L_A_low32`) -/

theorem test_decode_loadkey : decode 0x00000020_00000000_00000001 = .command (.loadkey 0 32) := by decide
theorem test_decode_loadkey_negative : decode 0xffffffe0_ffffffff_00000001 = .command (.loadkey (-1) (-32)) := by decide
theorem test_decode_update : decode 0x7fffffff_7fffffff_00000002 = .command (.update 2147483647 2147483647) := by decide
theorem test_decode_final : decode 0x00000000_80000000_00000003 = .command (.final (-2147483648)) := by decide
theorem test_decode_reset : decode 0x00000000_00000000_00000004 = .command .reset := by decide
theorem test_decode_taglen : decode 0x00000000_00000000_00000005 = .command .taglen := by decide
theorem test_decode_dispose : decode 0x00000000_00000000_00000006 = .command .dispose := by decide
theorem test_encode_update : encode (.update 53 20) = 0x00000014_00000035_00000002 := by decide
theorem test_encode_final : encode (.final (-16)) = 0x00000000_fffffff0_00000003 := by decide

/-- R53's table: the word of each row's `match` decodes to that row's command. -/
theorem test_table_words :
    decodeTableWord 32 1 = some (.loadkey 0 0) ∧ decodeTableWord 32 2 = some (.update 0 0) ∧
    decodeTableWord 96 3 = some (.final 0) ∧ decodeTableWord 96 4 = some .reset ∧ decodeTableWord 96 5 = some .taglen ∧
    decodeTableWord 96 6 = some .dispose ∧ decodeTableWord 96 7 = none := by decide

/-! ### One step each -/

/-- V1. -/
theorem test_loadkey_rfc_key :
    after (exec (.loadkey 0 32) unkeyed) (fun t => (t.r, t.s, t.k)) = some (keyed.r, keyed.s, keyed.k) ∧
    after (exec (.loadkey 0 32) unkeyed) (fun t => (t.st, t.status)) = some (.ready, 0x00010000) := by decide

/-- V4, the third key: where single bits land, and the byte order of the second half. -/
theorem test_loadkey_single_bits :
    let key : List Byte :=
      [0x00, 0x00, 0x00, 0x04, 0xfc, 0xff, 0xff, 0x0f, 0x00, 0x00, 0x00, 0x00, 0x00, 0x00, 0x00, 0x10] ++
      [0x01, 0x00, 0x00, 0x00, 0x00, 0x00, 0x00, 0x80, 0x78, 0x56, 0x34, 0x12, 0xef, 0xcd, 0xab, 0x89]
    after (exec (.loadkey 7 32) (State.afterReset (Memory.ofCells 256 (cellsAt 7 key)) [] [])) (fun t => (t.r, t.s, t.k)) =
      some (⟨0x00000000, 0x03ffff01, 0x000000ff, 0x00000000, 0x00000000⟩, ⟨0x13fffb05, 0x000004fb, 0, 0⟩,
        ⟨0x00000001, 0x80000000, 0x12345678, 0x89abcdef⟩) := by decide +kernel

/-- V8: two full blocks and two pending bytes. -/
theorem test_update_two_blocks :
    after (exec (.update 48 34) keyed) (fun t => (t.h, t.off, bufByte t.buf 1, bufByte t.buf 15)) =
      some (⟨0x004b30de, 0x03ed3a8d, 0x03fa7ccc, 0x008ec0cd, 0x02d8adaf⟩, 2, 0x70, 0x6f) := by decide +kernel

/-- V45: a negative length absorbs nothing. -/
theorem test_update_negative_length :
    after (exec (.update 0 (-1)) (midMessage 5)) id = some
      { midMessage 5 with status := 0x00010002, observed := [.response 0x00010002] } := by decide

/-- V9: the padded partial block, then the tag; the next byte is not written. -/
theorem test_final_rfc_tag :
    let m := { midMessage 2 with buf := (Vector.replicate 16 0x6f).set 0 0x75 |>.set 1 0x70 }
    after (exec (.final 128) m) (fun t => (t.om.readBytes 128 17, t.h, t.off)) =
      some ([0xa8, 0x06, 0x1d, 0xc1, 0x30, 0x51, 0x36, 0xc6, 0xc2, 0x2b, 0x8b, 0xaf, 0x0c, 0x01, 0x27, 0xa9] ++ [0x00],
        ⟨0, 0, 0, 0, 0⟩, 0) := by decide

/-- V18: the largest accumulator of R22, where the second carry pass matters. -/
theorem test_final_invariant_maximum :
    let m := { keyed with h := ⟨0x03ffffff, 0x04000025, 0x03ffffff, 0x03ffffff, 0x03ffffff⟩, k := ⟨0, 0, 0, 0⟩ }
    after (exec (.final 240) m) (fun t => t.om.readBytes 240 16) =
      some [0x04, 0x00, 0x00, 0x98, 0, 0, 0, 0, 0, 0, 0, 0, 0, 0, 0, 0] := by decide

/-- V24: the packing of the limbs and the sum with k. -/
theorem test_tag_packing :
    tagAssemble ⟨0x01234567, 0x02abcdef, 0x00fedcba, 0x03135799, 0x00ace135⟩ ⟨0x01020304, 0x05060708, 0x090a0b0c, 0x0d0e0f10⟩ =
      ⟨0xbe25486b, 0xd0b0b63f, 0xdef05af9, 0xb9ef44d4⟩ := by decide

/-- V7, the worst case of R22 under V2's key: the largest final carry. -/
theorem test_fold_worst_case :
    foldBlock true (fun _ => 0xff) clampMasks (fiveTimes clampMasks) ⟨0x03ffffff, 0x04000025, 0x03ffffff, 0x03ffffff, 0x03ffffff⟩ =
      ⟨0x03dffff8, 0x03fffa72, 0x03fe8017, 0x03a005ff, 0x00017fff⟩ := by decide

/-- V26. -/
theorem test_reset_ready :
    after (exec .reset (midMessage 4)) (fun t => (t.h, t.off, t.r, t.k, t.st, t.status)) =
      some (⟨0, 0, 0, 0, 0⟩, 0, keyed.r, keyed.k, .ready, 0x00010000) := by decide

/-- V27. -/
theorem test_reset_unkeyed : after (exec .reset unkeyed) id = some
      { unkeyed with observed := [.response 0x00000000] } := by decide

/-- V28. -/
theorem test_taglen_ready :
    after (exec .taglen (midMessage 4)) id = some
      { midMessage 4 with status := 0x00011000, observed := [.response 0x00011000] } := by decide

/-- V29. -/
theorem test_taglen_unkeyed :
    after (exec .taglen unkeyed) id = some
      { unkeyed with status := 0x00001000, observed := [.response 0x00001000] } := by decide

/-- V56. -/
theorem test_dispose :
    after (exec .dispose (midMessage 4)) id = some
      { unkeyed with observed := [.response 0x00000000] } := by decide

/-- V74: not a DISPOSE; the engine is not disposed. -/
theorem test_illegal_dispose :
    after (acceptCommand 0x00000000_ffffffff_00000006 keyed) id = some
      { keyed with status := 0x00010005, observed := [.response 0x00010005] } := by decide

/-- The model's one fault (log 5): a state that rests at off = 16. -/
theorem test_rest_at_sixteen_faults :
    exec (.update 48 1) (midMessage 16) = .fault .bufferFull ∧ exec (.final 128) (midMessage 16) = .fault .bufferFull := ⟨rfl, rfl⟩

/-- The model's one refusal (20_memory.md R31, U2), at both ends of OM; the last byte is inside. -/
theorem test_host_access_outside :
    refusal (perform (.hostRead 255 2) keyed) = some .hostAccessOutside ∧
    refusal (perform (.hostWrite (-1) [0x01]) keyed) = some .hostAccessOutside ∧
    after (perform (.hostWrite 255 [0x5a]) keyed) (fun t => t.om.read 255) = some 0x5a := by decide +kernel

/-! ### Failures at the boundaries (V30 to V54): state before, command word, response word -/

/-- A command word on an unkeyed or keyed engine answers as the table says. -/
def answers (m : State) (row : CommandWord × Word) : Bool := after (acceptCommand row.1 m) (fun t => t.status) == some row.2

theorem test_failures_unkeyed :
    ([(0x0000001f_00000000_00000001, 0x00000001), (0x00000021_00000000_00000001, 0x00000001),
      (0x00000000_00000000_00000001, 0x00000001), (0xffffffe0_ffffffff_00000001, 0x00000001),
      (0x00000020_000000e1_00000001, 0x00000002), (0x00000020_ffffffff_00000001, 0x00000002),
      (0x00000020_000000e0_00000001, 0x00010000), (0x00000010_00000030_00000002, 0x00000004),
      (0xffffffff_ffffffff_00000002, 0x00000004), (0x00000000_00000080_00000003, 0x00000004),
      (0x00000000_00000000_00000007, 0x00000005)] : List (CommandWord × Word)).all (answers unkeyed) = true := by decide

theorem test_failures_ready :
    ([(0x00000020_00000000_00000001, 0x00010004), (0x0000001f_00000000_00000001, 0x00010004),
      (0x00000008_000000fa_00000002, 0x00010002), (0x00000001_ffffffff_00000002, 0x00010002),
      (0xffffffff_00000000_00000002, 0x00010002), (0x00000000_00000101_00000002, 0x00010002),
      (0x00000000_00000100_00000002, 0x00010000), (0x7fffffff_7fffffff_00000002, 0x00010002)] :
        List (CommandWord × Word)).all (answers keyed) = true ∧
    ([(0x00000000_000000f1_00000003, 0x00010003), (0x00000000_00000100_00000003, 0x00010003),
      (0x00000000_00000101_00000003, 0x00010002), (0x00000000_fffffff0_00000003, 0x00010002),
      (0x00000000_000000f0_00000003, 0x00010000), (0x00000020_00000000_00000101, 0x00010005),
      (0x00000001_00000000_00000003, 0x00010005), (0x00000000_00000001_00000004, 0x00010005)] :
        List (CommandWord × Word)).all (answers keyed) = true := by decide

/-! ### Witnesses: states and operands that meet an obligation's hypotheses, all of them together -/

theorem rfcMemory_wf : rfcMemory.wf := by decide +kernel

theorem keyed_inv : keyed.Inv where
  clamped := by unfold KeyClamped; decide
  multiples := by unfold MultiplesExact; decide
  accumulator := by unfold AccumulatorBounded; decide
  offset := by decide
  unkeyed := fun hst => absurd hst (by show Lifecycle.ready ≠ .uninitialized; decide)
  statusWord := by unfold State.StatusConsistent; decide
  memory := rfcMemory_wf
  omBytes := by show 32 ≤ 256 ∧ 256 ≤ 2 ^ 31 - 1; decide

/-- The invariant of R22 holds of a keyed engine in the middle of a message. -/
theorem midMessage_inv (n : Fin 17) (h : n.val ≤ 15) : (midMessage n).Inv where
  clamped := keyed_inv.clamped
  multiples := keyed_inv.multiples
  accumulator := by
    show AccumulatorBounded ⟨0x004b30de, 0x03ed3a8d, 0x03fa7ccc, 0x008ec0cd, 0x02d8adaf⟩
    unfold AccumulatorBounded
    decide
  offset := h
  unkeyed := fun hst => absurd hst (by show Lifecycle.ready ≠ .uninitialized; decide)
  statusWord := keyed_inv.statusWord
  memory := rfcMemory_wf
  omBytes := keyed_inv.omBytes

theorem keyed_cleared : keyed.MessageCleared := ⟨rfl, rfl, rfl⟩

theorem unkeyed_inv : unkeyed.Inv where
  clamped := by unfold KeyClamped; decide
  multiples := by unfold MultiplesExact; decide
  accumulator := by unfold AccumulatorBounded; decide
  offset := by decide
  unkeyed := fun _ => ⟨⟨rfl, rfl, rfl⟩, ⟨rfl, rfl, rfl⟩⟩
  statusWord := by unfold State.StatusConsistent; decide
  memory := rfcMemory_wf
  omBytes := by show 32 ≤ 256 ∧ 256 ≤ 2 ^ 31 - 1; decide

/-- Every immediate at both ends of R52's range. -/
theorem witness_DecodeEncodeRoundTrip :
    WellFormed (.loadkey (-(2 ^ 31)) (2 ^ 31 - 1)) = true ∧ WellFormed (.loadkey (2 ^ 31 - 1) (-(2 ^ 31))) = true ∧
    WellFormed (.update (-(2 ^ 31)) (2 ^ 31 - 1)) = true ∧ WellFormed (.final (-(2 ^ 31))) = true ∧
    WellFormed (.final (2 ^ 31 - 1)) = true ∧ WellFormed .reset = true ∧ WellFormed .taglen = true ∧
    WellFormed .dispose = true := by decide

theorem witness_EncodeDecodeRoundTrip :
    ∃ (cw : CommandWord) (i : Instr), decode cw = .command i :=
  ⟨0x80000000_7fffffff_00000002, .update (2 ^ 31 - 1) (-(2 ^ 31)), by decide⟩

/-- A word that selects each row, operands at their largest. -/
theorem witness_OpcodeRowSelection :
    (opcodeTable.zip ([0xffffffff_ffffffff_00000001, 0xffffffff_ffffffff_00000002, 0x00000000_ffffffff_00000003,
      0x00000000_00000000_00000004, 0x00000000_00000000_00000005, 0x00000000_00000000_00000006] : List CommandWord)).all
      (fun rc => rc.1.selects rc.2) = true := by decide

/-- A word at the boundary of each case of R54. -/
theorem witness_IllegalWordsChangeOnlyStatus :
    decode 0xffffffff_ffffffff_00000000 = .illegal .unknownOpcode ∧ decode 0x00000000_00000000_00000007 = .illegal .unknownOpcode ∧
    decode 0x00000000_00000000_000000ff = .illegal .unknownOpcode ∧ decode 0x00000000_00000000_00000104 = .illegal .reservedNotZero ∧
    decode 0x00000000_00000000_80000006 = .illegal .reservedNotZero ∧ decode 0x00000001_00000000_00000003 = .illegal .lengthNotZero ∧
    decode 0x80000000_00000000_00000004 = .illegal .lengthNotZero ∧ decode 0x00000000_00000001_00000006 = .illegal .offsetNotZero := by
  decide

theorem witness_ImmediatesAreSignedFields :
    decode 0x7fffffff_80000000_00000001 = .command (.loadkey (-(2 ^ 31)) (2 ^ 31 - 1)) ∧
    decode 0x80000000_7fffffff_00000002 = .command (.update (2 ^ 31 - 1) (-(2 ^ 31))) ∧
    decode 0x00000000_80000000_00000003 = .command (.final (-(2 ^ 31))) := by decide

theorem witness_StepPerformsOldestAction :
    State.reset.commandPort = [] ∧
    (presentCommand 0x00000000_00000000_00000005 keyed).commandPort = .command 0x00000000_00000000_00000005 :: [] := by decide

theorem witness_StepRunsDecodedCommand :
    ((presentCommand 5 keyed).commandPort = .command 5 :: [] ∧ decode 5 = .command .taglen) ∧
    ((presentCommand 7 keyed).commandPort = .command 7 :: [] ∧ decode 7 = .illegal .unknownOpcode) := by decide

theorem witness_PresentedWordRunsNext : WellFormed (.final (2 ^ 31 - 1)) = true ∧ WellFormed (.update 0 (-(2 ^ 31))) = true := by decide

theorem witness_HardwareResetClearsRegisters : 0 < keyed.om.size ∧ 255 < keyed.om.size := by decide

/-- OM_BYTES at both ends of R7's range. -/
theorem witness_ResetSatisfiesBounds :
    ((⟨32, [(31, 0xff)]⟩ : Memory).wf ∧ Config.minOmBytes ≤ 32 ∧ 32 ≤ Config.maxOmBytes) ∧
    ((⟨2 ^ 31 - 1, [(0, 0x01), (2 ^ 31 - 2, 0xff)]⟩ : Memory).wf ∧ Config.minOmBytes ≤ 2 ^ 31 - 1 ∧
      2 ^ 31 - 1 ≤ Config.maxOmBytes) := by decide

/-- A step of each kind of action in a state of the invariant. -/
theorem witness_StepKeepsReachableBounds :
    (∃ t, (midMessage 15).Inv ∧ step (midMessage 15) = .next t) ∧ (∃ t, unkeyed.Inv ∧ step unkeyed = .next t) ∧
    (∃ m t, m.Inv ∧ m.commandPort = [.hardwareReset [(3, 7)]] ∧ step m = .next t) :=
  ⟨⟨_, midMessage_inv 15 (by decide), rfl⟩, ⟨_, unkeyed_inv, rfl⟩,
    ⟨{ keyed with commandPort := [.hardwareReset [(3, 7)]] }, _, { keyed_inv with }, rfl, rfl⟩⟩

theorem witness_StepKeepsOmBytes : ∃ t, step (presentCommand 6 keyed) = .next t := ⟨_, rfl⟩

theorem witness_BoundedStatesNeverFault : (midMessage 15).Inv ∧ keyed.Inv := ⟨midMessage_inv 15 (by decide), keyed_inv⟩

/-- The fault's conditions at the ends of OM; `test_rest_at_sixteen_faults` shows the fault. -/
theorem witness_OnlyRestingAtSixteenFaults :
    (midMessage 16).st = .ready ∧ (midMessage 16).off = 16 ∧ ((0 : Int) ≤ 255 ∧ (0 : Int) < 1 ∧ (255 : Int) + 1 ≤ (midMessage 16).om.size) ∧
    ((0 : Int) ≤ 240 ∧ (240 : Int) + 16 ≤ (midMessage 16).om.size) := by decide

/-- A refused access on each side, and an empty access at the end of OM, which is inside. -/
theorem witness_OnlyOutsideHostAccessesAreRefused :
    ((255 : Int) + (([0x01, 0x02] : List Byte).length : Int) > keyed.om.size) ∧ ((-1 : Int) < 0) ∧
    ¬ ((256 : Int) < 0 ∨ (256 : Int) + ((0 : Nat) : Int) > keyed.om.size) := by decide

theorem witness_EveryCommandAnswersInStatus : (midMessage 0).off.val ≤ 15 ∧ (midMessage 15).off.val ≤ 15 := by decide

theorem witness_FailureChangesOnlyStatus :
    ∃ (cw : CommandWord) (m t : State) (om : Memory), acceptCommand cw m = .next t ∧
      t.status.extractLsb' 0 8 ≠ (0 : BitVec 8) ∧ om.size = m.om.size :=
  ⟨7, keyed, _, ⟨256, []⟩, rfl, by decide, rfl⟩

theorem witness_FailedCommandLeavesNoTrace :
    ∃ (cw cw' : CommandWord) (m t v : State), acceptCommand cw m = .next t ∧ t.status.extractLsb' 0 8 ≠ (0 : BitVec 8) ∧
      acceptCommand cw' m = .next v :=
  ⟨7, 4, midMessage 15, _, _, rfl, by decide, rfl⟩

theorem witness_LifecycleTransitions :
    (∃ t, exec (.loadkey 0 32) keyed = .next t ∧ keyed.st = .ready) ∧ (∃ t, exec (.loadkey 0 31) unkeyed = .next t ∧ unkeyed.st = .uninitialized) ∧
    (∃ t, exec (.update 0 0) unkeyed = .next t) ∧ (∃ t, exec (.final 0) unkeyed = .next t) ∧ (∃ t, exec .reset keyed = .next t) ∧
    (∃ t, exec .taglen keyed = .next t) ∧ (∃ t, exec .dispose keyed = .next t) ∧
    (∃ t, decode 0 = .illegal .unknownOpcode ∧ acceptCommand 0 keyed = .next t) ∧
    (∃ t, perform (.hardwareReset []) keyed = .next t) :=
  ⟨⟨_, rfl, rfl⟩, ⟨_, rfl, rfl⟩, ⟨_, rfl⟩, ⟨_, rfl⟩, ⟨_, rfl⟩, ⟨_, rfl⟩, ⟨_, rfl⟩, ⟨_, by decide, rfl⟩, ⟨_, rfl⟩⟩

/-- The two edges between the lifecycle states. -/
theorem witness_LifecycleTransitions_edges :
    (∃ t, perform (.command (encode (.loadkey 0 32))) unkeyed = .next t ∧ unkeyed.st = .uninitialized ∧ t.st = .ready) ∧
    (∃ t, perform (.command (encode .dispose)) keyed = .next t ∧ keyed.st = .ready ∧ t.st = .uninitialized) ∧
    (∃ t, perform (.hardwareReset []) keyed = .next t ∧ keyed.st = .ready ∧ t.st = .uninitialized) :=
  have hload : perform (.command (encode (.loadkey 0 32))) unkeyed = .next (loadkeyResult 0 unkeyed) :=
    (acceptCommand_command (cw := encode (.loadkey 0 32)) (i := .loadkey 0 32) (by decide) unkeyed).trans (loadkey_completes rfl (by decide) (by decide))
  have hdispose : perform (.command (encode .dispose)) keyed = .next (respond .ok 0 (clearKeySchedule (clearMessageState keyed))) :=
    acceptCommand_command (cw := encode .dispose) (i := .dispose) (by decide) keyed
  ⟨⟨_, hload, rfl, loadkeyResult_st 0 unkeyed⟩, ⟨_, hdispose, rfl, rfl⟩, ⟨_, rfl, rfl, rfl⟩⟩

theorem witness_RegisterPortIsReadOnly : (1 : Nat) ≠ 0 := by decide

/-- Two engines with different secrets that look alike. -/
theorem witness_SecretsHaveNoReadPath :
    let m₂ := { midMessage 15 with r := ⟨1, 0, 0, 0, 0⟩, s := ⟨0, 0, 0, 0⟩, k := ⟨0, 0, 0, 0⟩, off := 3 }
    (midMessage 15).off.val ≤ 15 ∧ m₂.off.val ≤ 15 ∧ (midMessage 15).st = m₂.st ∧ (midMessage 15).om = m₂.om ∧
    (midMessage 15).observed = m₂.observed ∧ m₂ ≠ midMessage 15 := by decide +kernel

/-- Each clause of LOADKEY: a loaded key; L = 31 and 33; the window one byte out on either side; the last window inside. -/
theorem witness_LoadkeyLoadsKeySchedule :
    keyed.st = .ready ∧ (unkeyed.st = .uninitialized ∧ (31 : Int) ≠ 32) ∧ (unkeyed.st = .uninitialized ∧ (33 : Int) ≠ 32) ∧
    (unkeyed.st = .uninitialized ∧ (-1 : Int) < 0) ∧ (unkeyed.st = .uninitialized ∧ (225 : Int) + 32 > unkeyed.om.size) ∧
    (unkeyed.st = .uninitialized ∧ (0 : Int) ≤ 224 ∧ (224 : Int) + 32 ≤ unkeyed.om.size) := by decide

theorem witness_KeyClampIsOneMask : unkeyed.st = .uninitialized ∧ (0 : Int) ≤ 224 ∧ (224 : Int) + 32 ≤ unkeyed.om.size := by decide

theorem witness_KeyScheduleBoundsAfterLoadkey : unkeyed.st = .uninitialized ∧ (0 : Int) ≤ 0 ∧ (0 : Int) + 32 ≤ unkeyed.om.size := by
  decide

theorem witness_KeyScheduleIsImmutableOnceLoaded :
    ∃ t, (midMessage 15).st = .ready ∧ acceptCommand 4 (midMessage 15) = .next t ∧ decode 4 ≠ .command .dispose :=
  ⟨_, rfl, rfl, by decide⟩

/-- Each clause of UPDATE: no key; A = −1, L = −1, one byte too many; the whole of OM, from the first and the last resting value of off. -/
theorem witness_UpdateLoopsOverTheChunk :
    unkeyed.st = .uninitialized ∧ (keyed.st = .ready ∧ (-1 : Int) < 0) ∧ (keyed.st = .ready ∧ (255 : Int) + 2 > keyed.om.size) ∧
    ((midMessage 0).st = .ready ∧ (midMessage 0).off.val ≤ 15 ∧ (0 : Int) ≤ 0 ∧ (0 : Int) ≤ 256 ∧ (0 : Int) + 256 ≤ (midMessage 0).om.size) ∧
    ((midMessage 15).st = .ready ∧ (midMessage 15).off.val ≤ 15 ∧ (0 : Int) ≤ 256 ∧ (0 : Int) ≤ 0 ∧
      (256 : Int) + 0 ≤ (midMessage 15).om.size) := by decide

/-- The last byte of OM, with room in the buffer (off = 14) and as the sixteenth byte (off = 15). -/
theorem witness_UpdateAbsorbsOneByte :
    (keyed.st = .ready ∧ (0 : Int) ≤ 255 ∧ (255 : Int) + 1 ≤ keyed.om.size) ∧ ((midMessage 14).st = .ready ∧ (midMessage 14).off.val < 15) ∧
    ((midMessage 15).st = .ready ∧ (midMessage 15).off.val = 15) := by decide

theorem witness_EmptyUpdateChangesOnlyStatus :
    (keyed.st = .ready ∧ (0 : Int) ≤ 256 ∧ (256 : Int) ≤ keyed.om.size) ∧ (keyed.st = .ready ∧ (257 : Int) > keyed.om.size) := by decide

theorem witness_UpdateBuffersTheRemainder :
    (midMessage 15).st = .ready ∧ (midMessage 15).off.val ≤ 15 ∧ (0 : Int) ≤ 0 ∧ (0 : Int) ≤ 256 ∧
    (0 : Int) + 256 ≤ (midMessage 15).om.size := by decide

theorem witness_ChunkIndependence :
    (midMessage 15).st = .ready ∧ (midMessage 15).off.val ≤ 15 ∧ (0 : Int) ≤ 48 ∧ (0 : Int) ≤ 17 ∧ (0 : Int) ≤ 191 ∧
    (48 : Int) + 17 + 191 ≤ (midMessage 15).om.size := by decide

/-- The same 34 bytes in one chunk and in three, one of them empty. -/
theorem witness_ChunkIndependence_chunks :
    (∀ c ∈ [(⟨rfcMemory, 48, 34⟩ : Chunk)], c.Inside) ∧
    (∀ c ∈ [(⟨rfcMemory, 48, 5⟩ : Chunk), ⟨rfcMemory, 256, 0⟩, ⟨rfcMemory, 53, 29⟩], c.Inside) ∧
    [(⟨rfcMemory, 48, 34⟩ : Chunk)].flatMap Chunk.bytes =
      [(⟨rfcMemory, 48, 5⟩ : Chunk), ⟨rfcMemory, 256, 0⟩, ⟨rfcMemory, 53, 29⟩].flatMap Chunk.bytes := by
  unfold Chunk.Inside; decide +kernel

/-- R22's largest accumulator. -/
theorem witness_AddBlockAddsTheBlockNumber :
    AccumulatorBounded ⟨0x03FFFFFF, 0x04000025, 0x03FFFFFF, 0x03FFFFFF, 0x03FFFFFF⟩ := by unfold AccumulatorBounded; decide

theorem witness_MulReduceMultipliesModP :
    KeyClamped clampMasks ∧ MultiplesExact clampMasks (fiveTimes clampMasks) ∧ (0x07FFFFFE : Word).toNat ≤ 0x07FFFFFE ∧
    (0x08000024 : Word).toNat ≤ 0x08000024 := by unfold KeyClamped MultiplesExact; decide

theorem witness_CarryPropagateKeepsTheValue :
    AccumulatorBounded ⟨0x03FFFFFF, 0x04000025, 0x03FFFFFF, 0x03FFFFFF, 0x03FFFFFF⟩ ∧ KeyClamped clampMasks ∧
    MultiplesExact clampMasks (fiveTimes clampMasks) := by unfold AccumulatorBounded KeyClamped MultiplesExact; decide

theorem witness_BlockFoldIsHornerStep :
    KeyClamped (midMessage 15).r ∧ MultiplesExact (midMessage 15).r (midMessage 15).s ∧ AccumulatorBounded (midMessage 15).h :=
  ⟨(midMessage_inv 15 (by decide)).clamped, (midMessage_inv 15 (by decide)).multiples, (midMessage_inv 15 (by decide)).accumulator⟩

theorem witness_PaddingMarksTheEnd :
    (1 ≤ (midMessage 1).off.val ∧ (midMessage 1).off.val ≤ 15) ∧ (1 ≤ (midMessage 15).off.val ∧ (midMessage 15).off.val ≤ 15) := by decide

theorem witness_FullCarryNormalisesTheAccumulator :
    AccumulatorBounded ⟨0x03FFFFFF, 0x04000025, 0x03FFFFFF, 0x03FFFFFF, 0x03FFFFFF⟩ := by unfold AccumulatorBounded; decide

/-- P − 1 is below P; P and 2^130 − 1 are not. -/
theorem witness_ReduceSelectIsTheResidue :
    (FullyCarried ⟨0x03fffffa, 0x03ffffff, 0x03ffffff, 0x03ffffff, 0x03ffffff⟩ ∧
      Limbs.val ⟨0x03fffffa, 0x03ffffff, 0x03ffffff, 0x03ffffff, 0x03ffffff⟩ < Config.modulus) ∧
    (FullyCarried ⟨0x03fffffb, 0x03ffffff, 0x03ffffff, 0x03ffffff, 0x03ffffff⟩ ∧
      Config.modulus ≤ Limbs.val ⟨0x03fffffb, 0x03ffffff, 0x03ffffff, 0x03ffffff, 0x03ffffff⟩) ∧
    FullyCarried ⟨0x03ffffff, 0x03ffffff, 0x03ffffff, 0x03ffffff, 0x03ffffff⟩ := by unfold FullyCarried; decide

theorem witness_TagAssembleAddsTheMask :
    FullyCarried ⟨0x03ffffff, 0x03ffffff, 0x03ffffff, 0x03ffffff, 0x03ffffff⟩ := by unfold FullyCarried; decide

/-- Each clause of FINAL: no key; A = −1 and 257; A = 241 and 256; A = 240, with 15 pending bytes and with none. -/
theorem witness_FinalWritesTheTag :
    unkeyed.st = .uninitialized ∧ (keyed.st = .ready ∧ (-1 : Int) < 0) ∧ (keyed.st = .ready ∧ (257 : Int) > keyed.om.size) ∧
    (keyed.st = .ready ∧ (0 : Int) ≤ 241 ∧ (241 : Int) ≤ keyed.om.size ∧ (241 : Int) + 16 > keyed.om.size) ∧
    (keyed.st = .ready ∧ (0 : Int) ≤ 256 ∧ (256 : Int) ≤ keyed.om.size ∧ (256 : Int) + 16 > keyed.om.size) ∧
    ((midMessage 15).st = .ready ∧ (midMessage 15).off.val ≤ 15 ∧ (midMessage 15).om.wf ∧ (0 : Int) ≤ 240 ∧
      (240 : Int) + 16 ≤ (midMessage 15).om.size) ∧
    ((midMessage 0).st = .ready ∧ (midMessage 0).off.val = 0 ∧ (midMessage 0).om.wf ∧ (0 : Int) ≤ 0 ∧
      (0 : Int) + 16 ≤ (midMessage 0).om.size) :=
  ⟨by decide, by decide, by decide, by decide, by decide,
    ⟨rfl, by decide, rfcMemory_wf, by decide, by decide⟩, ⟨rfl, by decide, rfcMemory_wf, by decide, by decide⟩⟩

theorem witness_FinalTagIsResiduePlusMask :
    (midMessage 15).Inv ∧ (midMessage 15).st = .ready ∧ (0 : Int) ≤ 240 ∧ (240 : Int) + 16 ≤ (midMessage 15).om.size :=
  ⟨midMessage_inv 15 (by decide), rfl, by decide, by decide⟩

/-- A LOADKEY that succeeds, a message in progress under the key it leaves, and RESET; and the same with FINAL. -/
theorem witness_ClearedStateEqualsFreshlyKeyed :
    ∃ t₀ m t u, exec (.loadkey 0 32) unkeyed = .next t₀ ∧ statusCode t₀.status = 0 ∧ m.st = .ready ∧ m.r = t₀.r ∧ m.s = t₀.s ∧
      m.k = t₀.k ∧ m.off = 9 ∧ exec .reset m = .next t ∧ exec (.final 240) m = .next u ∧ statusCode u.status = 0 := by
  exact ⟨_, { loadkeyResult 0 unkeyed with off := 9 }, _, _, loadkey_completes rfl (by decide) (by decide), by simp [loadkeyResult, CompletionCode.number],
    rfl, rfl, rfl, rfl, rfl, rfl, final_completes rfl (by decide) (by decide) (by decide), by simp [finalResult, CompletionCode.number]⟩

theorem witness_EmptyMessageTagIsTheMask :
    keyed.st = .ready ∧ keyed.MessageCleared ∧ keyed.om.wf ∧ (0 : Int) ≤ 240 ∧ (240 : Int) + 16 ≤ keyed.om.size :=
  ⟨rfl, keyed_cleared, rfcMemory_wf, by decide, by decide⟩

/-- Two chunks of the message, OM replaced between them. -/
def twoChunks : List Chunk := [⟨rfcMemory, 48, 17⟩, ⟨⟨256, cellsAt 100 [0x01, 0x02]⟩, 100, 156⟩]

theorem twoChunks_inside : ∀ c ∈ twoChunks, c.Inside := by
  unfold Chunk.Inside; decide +kernel

theorem witness_EngineComputesPoly1305 :
    (unkeyed.st = .uninitialized ∧ (0 : Int) ≤ 0 ∧ (0 : Int) + 32 ≤ unkeyed.om.size) ∧
    ∃ t₀ m : State, exec (.loadkey 0 32) unkeyed = .next t₀ ∧ m.st = .ready ∧ m.r = t₀.r ∧ m.s = t₀.s ∧ m.k = t₀.k ∧ m.MessageCleared ∧
      (∀ c ∈ twoChunks, c.Inside) ∧ rfcMemory.wf ∧ (0 : Int) ≤ 240 ∧ (240 : Int) + 16 ≤ rfcMemory.size := by
  refine ⟨by decide, ?_⟩
  exact ⟨_, loadkeyResult 0 unkeyed, loadkey_completes rfl (by decide) (by decide), rfl, rfl, rfl, rfl, ⟨rfl, rfl, rfl⟩, twoChunks_inside, rfcMemory_wf, by decide, by decide⟩

theorem witness_ClearedStateTagsTheNextMessage :
    keyed.Inv ∧ keyed.st = .ready ∧ keyed.MessageCleared ∧ (∀ c ∈ twoChunks, c.Inside) ∧ rfcMemory.wf ∧ (0 : Int) ≤ 0 ∧
    (0 : Int) + 16 ≤ rfcMemory.size :=
  ⟨keyed_inv, rfl, keyed_cleared, twoChunks_inside, rfcMemory_wf, by decide, by decide⟩

/-- An OM that agrees with `rfcMemory` on one message byte and on nothing else of the message. -/
def oneByteMemory : Memory := ⟨256, [(48, 0x43)]⟩

/-- An UPDATE of that byte; and a successful FINAL, which reads nothing, at the last window of OM, both ends of it written. -/
theorem witness_CommandsAccessOnlyTheirWindows :
    (midMessage 15).off.val ≤ 15 ∧ oneByteMemory.size = (midMessage 15).om.size ∧ (midMessage 15).om.wf ∧ oneByteMemory.wf ∧
    (∀ x, (Instr.update 48 1).Reads x → oneByteMemory.read x = (midMessage 15).om.read x) ∧
    ∃ t, exec (.final 240) (midMessage 15) = .next t ∧ statusCode t.status = 0 ∧
      (∀ x, (Instr.final 240).Reads x → oneByteMemory.read x = (midMessage 15).om.read x) ∧
      (Instr.final 240).Writes 240 ∧ (Instr.final 240).Writes 255 := by
  refine ⟨by decide, rfl, rfcMemory_wf, by decide, fun x hx => ?_,
    _, final_completes rfl (by decide) (by decide) (by decide), by simp, fun _ hx => absurd hx id, ?_⟩
  · have h48 : x = 48 := by
      obtain ⟨h1, h2⟩ : (48 : Int) ≤ x ∧ (x : Int) < 48 + 1 := hx
      omega
    subst h48
    decide
  · unfold Instr.Writes
    decide

/-- Each clause of R31 at the ends of OM. -/
theorem witness_HostAccessesAreByteExact :
    rfcMemory.wf ∧ ((-1 : Int) < 0) ∧ ((255 : Int) + (([0x01, 0x02] : List Byte).length : Int) > keyed.om.size) ∧
    ((0 : Int) ≤ 255 ∧ (255 : Int) + (([0x01] : List Byte).length : Int) ≤ keyed.om.size) ∧
    ((0 : Int) ≤ 0 ∧ (0 : Int) + ((256 : Nat) : Int) ≤ keyed.om.size) ∧
    ((0 : Int) ≤ 254 ∧ (254 : Int) + 1 + (([0x01] : List Byte).length : Int) ≤ keyed.om.size) :=
  ⟨rfcMemory_wf, by decide, by decide, by decide, by decide, by decide⟩

end Sys2Proof.Tests
end

section
/-! No step changes OM_BYTES (spec/00_scope.md R7): first for a command, then for a command word, an action of the host, a step. -/

namespace Sys2Proof.Machine

/-- Only FINAL writes OM, and a write keeps the size. -/
theorem exec_om_size {i : Instr} {m t : State} (h : exec i m = .next t) : t.om.size = m.om.size := by
  obtain ⟨_, -, rfl⟩ | ⟨_, -, -, -, -, rfl⟩ | ⟨_, _, -, -, -, -, -, -, rfl⟩ | ⟨_, -, -, -, -, -, rfl⟩ | ⟨-, rfl⟩ | ⟨-, rfl⟩ | ⟨-, rfl⟩ :=
    exec_cases h
  case inr.inr.inr.inl => rw [finalResult_om, Memory.writeWords4_size]
  all_goals simp only [failedWith_om, loadkeyResult_om, updateResult_om, respond_om, clearMessageState_om, clearKeySchedule_om]

theorem acceptCommand_om_size {cw : CommandWord} {m t : State} (h : acceptCommand cw m = .next t) : t.om.size = m.om.size := by
  cases hd : decode cw with
  | command i => exact exec_om_size (acceptCommand_command hd m ▸ h)
  | illegal why =>
    rw [acceptCommand_illegal hd] at h
    cases h
    rw [failedWith_om]

/-- A host write and a hardware reset replace OM by one of the same size; the host's other actions leave it to the command. -/
theorem perform_om_size {act : HostAction} {m t : State} (h : perform act m = .next t) : t.om.size = m.om.size := by
  obtain ⟨_, -, h⟩ | ⟨_, _, -, -, -, rfl⟩ | ⟨_, _, -, -, -, rfl⟩ | ⟨_, -, rfl⟩ | ⟨_, _, -, rfl⟩ | ⟨_, -, rfl⟩ := perform_cases h
  · exact acceptCommand_om_size h
  · rw [State.setMemory_om, Memory.writeBytes_size]
  · rw [observe_om]
  · rw [observe_om]
  · rfl
  · rw [afterReset_om, Memory.ofCells_size]

/-- Settles O13: a step waits or performs one action of the host, and no action changes the size of OM. -/
theorem stepKeepsOmBytes : Obligations.StepKeepsOmBytes := by
  intro m t h
  obtain ⟨-, hwait⟩ | ⟨_, rest, -, hact⟩ := step_cases m
  · cases hwait.symm.trans h
    rfl
  · exact perform_om_size (m := { m with commandPort := rest }) (hact.symm.trans h)

end Sys2Proof.Machine
end

section
/-! The bounds of r, s and h (spec/10_state.md R12, R13, R22): what the clamp gives, and that a block fold keeps them. -/

namespace Sys2Proof.Machine

/-! ### The key schedule (R12 to R14) -/

theorem and_and_not_self (x mask : Word) : (x &&& mask) &&& ~~~mask = 0 := by
  rw [BitVec.and_assoc, BitVec.and_not_self]
  exact BitVec.and_zero

/-- Each limb of the clamp is masked last, so no cleared bit is left. -/
theorem keyClamped_clamp (key : Nat → Byte) : KeyClamped (clamp key) := by
  simp only [KeyClamped, clamp, and_and_not_self, and_self]

/-- A clamped limb times 5 fits 32 bits (R13: no wraparound). -/
theorem multiplesExact_fiveTimes {r : Limbs} (h : KeyClamped r) : MultiplesExact r (fiveTimes r) := by
  obtain ⟨-, h1, h2, h3, h4⟩ := clamped_bounds h
  simp only [MultiplesExact, fiveTimes, BitVec.toNat_mul, show (5 : Word).toNat = 5 from rfl]
  omega

theorem multiples_bounds {r : Limbs} {s : Multiples} (hr : KeyClamped r) (hs : MultiplesExact r s) :
    s.x1.toNat ≤ 0x13FFFB0F ∧ s.x2.toNat ≤ 0x13FEC4FB ∧ s.x3.toNat ≤ 0x13B13FFB ∧ s.x4.toNat ≤ 0x004FFFFB := by
  obtain ⟨-, h1, h2, h3, h4⟩ := clamped_bounds hr
  obtain ⟨e1, e2, e3, e4⟩ := hs
  omega

/-- R63: K is the number of key bytes 16..31. -/
theorem maskWords_val (key : Nat → Byte) : (maskWords key).val = leNat (firstBytes (fun j => key (16 + j)) 16) := by
  rw [leNat_firstBytes_sixteen]
  show (le32 key 16).toNat + (le32 key 20).toNat * 2 ^ 32 + (le32 key 24).toNat * 2 ^ 64 + (le32 key 28).toNat * 2 ^ 96 =
    (le32 key 16).toNat + 2 ^ 32 * (le32 key 20).toNat + 2 ^ 64 * (le32 key 24).toNat + 2 ^ 96 * (le32 key 28).toNat
  ring

/-! ### The block fold (R71 to R74) -/

theorem and_limbMask_le (x : Word) : (x &&& limbMask).toNat ≤ 0x03FFFFFF := by
  rw [and_limbMask_toNat]; omega

theorem lowLimb_le (t : DWord) : (lowLimb t).toNat ≤ 0x03FFFFFF := by
  rw [lowLimb_toNat]; omega

/-- The limbs of a block fit 26 bits, the top one 25 (R72). -/
theorem blockLimbs_le (full : Bool) (b : Nat → Byte) :
    (blockLimbs full b).x0.toNat ≤ 0x03FFFFFF ∧ (blockLimbs full b).x1.toNat ≤ 0x03FFFFFF ∧
    (blockLimbs full b).x2.toNat ≤ 0x03FFFFFF ∧ (blockLimbs full b).x3.toNat ≤ 0x03FFFFFF ∧
    (blockLimbs full b).x4.toNat ≤ 0x01FFFFFF := by
  refine ⟨and_limbMask_le _, and_limbMask_le _, and_limbMask_le _, and_limbMask_le _, ?_⟩
  have htop : (le32 b 12 >>> 8).toNat < 2 ^ 24 := by
    have := (le32 b 12).isLt
    rw [BitVec.toNat_ushiftRight, Nat.shiftRight_eq_div_pow]
    omega
  cases full
  · show (le32 b 12 >>> 8).toNat ≤ _
    omega
  · show ((0x01000000 : Word) + (le32 b 12 >>> 8)).toNat ≤ _
    rw [BitVec.toNat_add, show (0x01000000 : Word).toNat = 0x01000000 from rfl]
    omega

/-- From a bounded accumulator AddBlock stays within twice the bounds, the top limb within one and a half times (R72). -/
theorem addBlock_le (full : Bool) (b : Nat → Byte) {h : Limbs} (hh : AccumulatorBounded h) :
    (addBlock full b h).x0.toNat ≤ 0x07FFFFFE ∧ (addBlock full b h).x1.toNat ≤ 0x08000024 ∧
    (addBlock full b h).x2.toNat ≤ 0x07FFFFFE ∧ (addBlock full b h).x3.toNat ≤ 0x07FFFFFE ∧
    (addBlock full b h).x4.toNat ≤ 0x05FFFFFE := by
  obtain ⟨h0, h1, h2, h3, h4⟩ := hh
  obtain ⟨b0, b1, b2, b3, b4⟩ := blockLimbs_le full b
  simp only [addBlock, addLimbs, BitVec.toNat_add]
  omega

/-- The top row of MulReduce, from which the final carry comes, stays below 7.5 · 2^52 and a little (R73, R74). -/
theorem mulReduce_t4_le {h r : Limbs} (s : Multiples) (hr : KeyClamped r) (h0 : h.x0.toNat ≤ 0x07FFFFFE)
    (h1 : h.x1.toNat ≤ 0x08000024) (h2 : h.x2.toNat ≤ 0x07FFFFFE) (h3 : h.x3.toNat ≤ 0x07FFFFFE) (h4 : h.x4.toNat ≤ 0x05FFFFFE) :
    (mulReduce h r s).t4.toNat ≤ 0x1E000024 * 2 ^ 26 := by
  obtain ⟨r0, r1, r2, r3, r4⟩ := clamped_bounds hr
  have p0 := Nat.mul_le_mul h0 r4
  have p1 := Nat.mul_le_mul h1 r3
  have p2 := Nat.mul_le_mul h2 r2
  have p3 := Nat.mul_le_mul h3 r1
  have p4 := Nat.mul_le_mul h4 r0
  simp only [mulReduce]
  rw [row_toNat] <;> simp only [mul64_toNat] <;> omega

/-- The final carry: the rows below bring less than 2^38 into the top row, which then still fits 32 bits after its shift. -/
theorem finalCarry_le {t4 : DWord} (t3 : DWord) (h : t4.toNat ≤ 0x1E000024 * 2 ^ 26) :
    (((t4 + (t3 >>> 26)) >>> 26).setWidth 32 : Word).toNat ≤ 0x1E001024 := by
  have h3 := t3.isLt
  simp only [BitVec.toNat_setWidth, BitVec.toNat_ushiftRight, BitVec.toNat_add, Nat.shiftRight_eq_div_pow]
  omega

/-- Limb 0 with five times the final carry stays below 39 · 2^26, so that limb 1 takes at most 38 from it. -/
theorem limb1_le {low0 low1 c : Word} (h0 : low0.toNat ≤ 0x03FFFFFF) (h1 : low1.toNat ≤ 0x03FFFFFF) (hc : c.toNat ≤ 0x1E001024) :
    (low1 + ((low0 + c * 5) >>> 26)).toNat ≤ 0x04000025 := by
  have h5 : (c * 5).toNat = c.toNat * 5 := BitVec.toNat_mul_of_lt (by rw [show (5 : Word).toNat = 5 from rfl]; omega)
  have hlow : (low0 + c * 5).toNat < 39 * 2 ^ 26 := by rw [BitVec.toNat_add_of_lt] <;> omega
  rw [BitVec.toNat_add, BitVec.toNat_ushiftRight, Nat.shiftRight_eq_div_pow]
  omega

theorem carryPropagate_bounded {tp : PartialSums} (h : tp.t4.toNat ≤ 0x1E000024 * 2 ^ 26) :
    AccumulatorBounded (carryPropagate tp) :=
  ⟨and_limbMask_le _, limb1_le (lowLimb_le _) (lowLimb_le _) (finalCarry_le _ h), lowLimb_le _, lowLimb_le _, lowLimb_le _⟩

/-- R22, 2: under a clamped key a block fold keeps the bounds of h. -/
theorem foldBlock_bounded (full : Bool) (b : Nat → Byte) {h r : Limbs} (s : Multiples) (hr : KeyClamped r)
    (hh : AccumulatorBounded h) : AccumulatorBounded (foldBlock full b r s h) := by
  obtain ⟨h0, h1, h2, h3, h4⟩ := addBlock_le full b hh
  exact carryPropagate_bounded (mulReduce_t4_le s hr h0 h1 h2 h3 h4)

/-- Settles O26: the bounds follow from the masks of the clamp, the multiples' from those of r, and K is the second half of the key. -/
theorem keyScheduleBoundsAfterLoadkey : Obligations.KeyScheduleBoundsAfterLoadkey := by
  intro a m hst h0 h1
  have hr := keyClamped_clamp fun j => m.om.read (a.toNat + j)
  have hs := multiplesExact_fiveTimes hr
  obtain ⟨r0, r1, r2, r3, r4⟩ := clamped_bounds hr
  obtain ⟨s1, s2, s3, s4⟩ := multiples_bounds hr hs
  refine ⟨_, loadkey_completes hst h0 h1, ?_⟩
  rw [loadkeyResult_r, loadkeyResult_s, loadkeyResult_k, maskWords_val, readBytes_eq_firstBytes]
  refine ⟨hr, r0, r1, r2, r3, r4, hs, s1, s2, s3, s4, ?_⟩
  simp only [Nat.add_assoc]

end Sys2Proof.Machine
end

section
/-! The invariant of spec/10_state.md R22: it holds after reset, and every command, every action of the host and so every step keeps
it. A command writes its registers first and STATUS last, so the invariant is kept in two parts: the bounds, then the answer. -/

namespace Sys2Proof.Machine

/-- The invariant but for the form of STATUS: what holds of a command's state when it comes to answer. -/
structure State.Bounded (m : State) : Prop where
  clamped : KeyClamped m.r
  multiples : MultiplesExact m.r m.s
  accumulator : AccumulatorBounded m.h
  offset : m.off.val ≤ 15
  unkeyed : m.st = .uninitialized → m.KeyCleared ∧ m.MessageCleared
  memory : m.om.wf
  omBytes : Config.minOmBytes ≤ m.om.size ∧ m.om.size ≤ Config.maxOmBytes

theorem State.Inv.bounded {m : State} (h : m.Inv) : m.Bounded := { h with }

/-! ### Zero registers -/

theorem keyClamped_zero : KeyClamped ⟨0, 0, 0, 0, 0⟩ := by unfold KeyClamped; decide

theorem multiplesExact_zero : MultiplesExact ⟨0, 0, 0, 0, 0⟩ ⟨0, 0, 0, 0⟩ := by unfold MultiplesExact; decide

theorem accumulatorBounded_zero : AccumulatorBounded ⟨0, 0, 0, 0, 0⟩ := by unfold AccumulatorBounded; decide

theorem afterReset_inv {om : Memory} (port : List HostAction) (obs : List Observation) (hwf : om.wf)
    (hsize : Config.minOmBytes ≤ om.size ∧ om.size ≤ Config.maxOmBytes) : (State.afterReset om port obs).Inv where
  clamped := keyClamped_zero
  multiples := multiplesExact_zero
  accumulator := accumulatorBounded_zero
  offset := Nat.zero_le 15
  unkeyed := fun _ => ⟨⟨rfl, rfl, rfl⟩, ⟨rfl, rfl, rfl⟩⟩
  statusWord := by
    rw [State.StatusConsistent, afterReset_status, afterReset_st]
    decide
  memory := hwf
  omBytes := hsize

/-- Settles O11: every register is zero after reset, and OM is as given. -/
theorem resetSatisfiesBounds : Obligations.ResetSatisfiesBounds :=
  ⟨afterReset_inv [] [] (Memory.empty_wf _) (by decide), fun _ port obs hwf hmin hmax => afterReset_inv port obs hwf ⟨hmin, hmax⟩⟩

/-! ### The operations of the commands -/

/-- Answering with a code 0..5, and with VAL 0 or on success 16, completes the invariant (R18). -/
theorem State.Bounded.answer {m : State} (h : m.Bounded) {code val : Byte} (hcode : code.toNat ≤ 5)
    (hval : val = 0 ∨ (val = 16 ∧ code = 0)) : (m.answer (responseWord code val m.st.bit)).Inv :=
  { h with
    statusWord := by
      simp only [State.StatusConsistent, State.answer_status, State.answer_st, statusRdy_responseWord, statusReserved_responseWord,
        statusCode_responseWord, statusVal_responseWord, true_and]
      exact ⟨hcode, hval⟩ }

theorem State.Bounded.failedWith {m : State} (h : m.Bounded) {code : Byte} (hcode : code.toNat ≤ 5) : (failedWith code m).Inv :=
  h.answer hcode (.inl rfl)

/-- The answer of a command that succeeds without a value. -/
theorem State.Bounded.respondOk {m : State} (h : m.Bounded) : (respond .ok 0 m).Inv :=
  h.answer (Nat.zero_le 5) (.inl rfl)

theorem State.Bounded.clearMessageState {m : State} (h : m.Bounded) : (clearMessageState m).Bounded :=
  { h with
    accumulator := accumulatorBounded_zero
    offset := Nat.zero_le 15
    unkeyed := fun hst => ⟨(h.unkeyed hst).1, rfl, rfl, rfl⟩ }

theorem State.Bounded.setMemory {m : State} (h : m.Bounded) {om : Memory} (hwf : om.wf) (hsize : om.size = m.om.size) :
    (m.setMemory om).Bounded :=
  { h with
    memory := hwf
    omBytes := by rw [State.setMemory_om, hsize]; exact h.omBytes }

/-- DISPOSE's clearing: the message state is cleared first, so that all registers of the unkeyed engine are zero (R17). -/
theorem State.Bounded.clearKeySchedule {m : State} (h : m.Bounded) (hmsg : m.MessageCleared) : (clearKeySchedule m).Bounded :=
  { h with
    clamped := keyClamped_zero
    multiples := multiplesExact_zero
    unkeyed := fun _ => ⟨⟨rfl, rfl, rfl⟩, hmsg⟩ }

/-- The registers a successful LOADKEY leaves, whatever the key. -/
theorem State.Bounded.loadkey {m : State} (h : m.Bounded) (key : Nat → Byte) :
    ((Machine.clearMessageState (loadKeySchedule key m)).setLifecycle .ready).Bounded :=
  { h with
    clamped := keyClamped_clamp key
    multiples := multiplesExact_fiveTimes (keyClamped_clamp key)
    accumulator := accumulatorBounded_zero
    offset := Nat.zero_le 15
    unkeyed := nofun }

theorem absorbByte_bounded {m : State} (hr : KeyClamped m.r) (hh : AccumulatorBounded m.h) (hoff : m.off.val ≤ 15) (b : Byte) :
    AccumulatorBounded (absorbByte m b).h := by
  obtain ⟨-, h⟩ | ⟨-, h⟩ := absorbByte_cases hoff b <;> rw [h, State.setBuffer_h]
  · exact hh
  · exact foldBlock_bounded true _ m.s hr hh

/-- One byte absorbed by a keyed engine. -/
theorem State.Bounded.absorbByte {m : State} (h : m.Bounded) (hst : m.st = .ready) (b : Byte) : (absorbByte m b).Bounded where
  clamped := by rw [absorbByte_r]; exact h.clamped
  multiples := by rw [absorbByte_r, absorbByte_s]; exact h.multiples
  accumulator := absorbByte_bounded h.clamped h.accumulator h.offset b
  offset := absorbByte_off_le h.offset b
  unkeyed := by rw [absorbByte_st, hst]; nofun
  memory := by rw [absorbByte_om]; exact h.memory
  omBytes := by rw [absorbByte_om]; exact h.omBytes

theorem State.Bounded.absorbBytes {m : State} (h : m.Bounded) (hst : m.st = .ready) (bs : List Byte) : (absorbBytes m bs).Bounded := by
  induction bs generalizing m with
  | nil => exact h
  | cons b bs ih => exact ih (h.absorbByte hst b) (by rw [absorbByte_st, hst])

/-! ### Commands, actions of the host, steps -/

theorem exec_keeps_inv {i : Instr} {m t : State} (hm : m.Inv) (h : exec i m = .next t) : t.Inv := by
  have hb := hm.bounded
  obtain ⟨code, hcode, rfl⟩ | ⟨_, -, -, -, -, rfl⟩ | ⟨_, _, -, hst, -, -, -, -, rfl⟩ | ⟨_, -, -, -, -, -, rfl⟩ | ⟨-, rfl⟩ |
    ⟨-, rfl⟩ | ⟨-, rfl⟩ := exec_cases h
  · exact hb.failedWith (by rcases hcode with rfl | rfl | rfl | rfl <;> decide)
  · exact (hb.loadkey _).respondOk
  · exact (hb.absorbBytes hst _).respondOk
  · exact (hb.setMemory (Memory.writeWords4_wf hm.memory _ _) (Memory.writeWords4_size ..)).clearMessageState.respondOk
  · exact hb.clearMessageState.respondOk
  · exact hb.answer (Nat.zero_le 5) (.inr ⟨rfl, rfl⟩)
  · exact (hb.clearMessageState.clearKeySchedule ⟨rfl, rfl, rfl⟩).respondOk

theorem acceptCommand_keeps_inv {cw : CommandWord} {m t : State} (hm : m.Inv) (h : acceptCommand cw m = .next t) : t.Inv := by
  cases hd : decode cw with
  | command i => exact exec_keeps_inv hm (acceptCommand_command hd m ▸ h)
  | illegal why =>
    rw [acceptCommand_illegal hd] at h
    cases h
    exact hm.bounded.failedWith (by decide)

theorem perform_keeps_inv {act : HostAction} {m t : State} (hm : m.Inv) (h : perform act m = .next t) : t.Inv := by
  obtain ⟨_, -, h⟩ | ⟨a, bytes, -, -, -, rfl⟩ | ⟨_, _, -, -, -, rfl⟩ | ⟨_, -, rfl⟩ | ⟨_, _, -, rfl⟩ | ⟨contents, -, rfl⟩ :=
    perform_cases h
  · exact acceptCommand_keeps_inv hm h
  · exact { hm.bounded.setMemory (Memory.writeBytes_wf hm.memory a.toNat bytes) (Memory.writeBytes_size ..) with
      statusWord := hm.statusWord }
  · exact { hm with }
  · exact { hm with }
  · exact hm
  · exact afterReset_inv _ _ (Memory.ofCells_wf ..) (by rw [Memory.ofCells_size]; exact hm.omBytes)

/-- Settles O12: a step waits or performs one action of the host, and every action keeps the invariant. -/
theorem stepKeepsReachableBounds : Obligations.StepKeepsReachableBounds := by
  intro m t hm h
  obtain ⟨-, hwait⟩ | ⟨_, rest, -, hact⟩ := step_cases m
  · cases hwait.symm.trans h
    exact hm
  · exact perform_keeps_inv (m := { m with commandPort := rest }) { hm with } (hact.symm.trans h)

end Sys2Proof.Machine
end

section
/-! Where the model's one fault can occur (log 5): only in a command, only at off = 16, which the invariant excludes. -/

namespace Sys2Proof.Machine

/-- Of the host's actions only a command can fault. -/
theorem perform_fault {act : HostAction} {m : State} {f : Fault} (h : perform act m = .fault f) : m.off = 16 := by
  cases act with
  | command cw =>
    replace h : acceptCommand cw m = .fault f := h
    cases hd : decode cw with
    | command i => exact exec_fault (acceptCommand_command hd m ▸ h)
    | illegal why => rw [acceptCommand_illegal hd] at h; cases h
  | hostWrite a bytes => rw [perform, hostWrite] at h; split_ifs at h
  | hostRead a n => rw [perform, hostRead] at h; split_ifs at h
  | readRegister n => cases h
  | writeRegister n v => cases h
  | hardwareReset contents => cases h

/-- Settles O14: a fault needs off = 16, and the invariant has off ≤ 15. -/
theorem boundedStatesNeverFault : Obligations.BoundedStatesNeverFault := by
  intro m hm f h
  obtain ⟨-, hwait⟩ | ⟨_, rest, -, hact⟩ := step_cases m
  · cases hwait.symm.trans h
  · exact off_ne_sixteen hm.offset (perform_fault (m := { m with commandPort := rest }) (hact.symm.trans h))

theorem Lifecycle.ne_uninitialized {st : Lifecycle} : st ≠ .uninitialized ↔ st = .ready := by cases st <;> decide

theorem execUpdate_fault_iff (a l : Int) (m : State) : exec (.update a l) m = .fault .bufferFull ↔
    m.st = .ready ∧ m.off = 16 ∧ 0 ≤ a ∧ 0 < l ∧ a + l ≤ m.om.size := by
  rw [execUpdate_eq, ← Lifecycle.ne_uninitialized]
  split_ifs with hst hw ho
  · simp [hst]
  · simp only [false_iff]; omega
  · simp only [true_iff]; exact ⟨hst, ho.1, by omega, by omega, by omega⟩
  · simp only [false_iff]; exact fun ⟨_, h16, _, hl, _⟩ => ho ⟨h16, by omega⟩

theorem execFinal_fault_iff (a : Int) (m : State) : exec (.final a) m = .fault .bufferFull ↔
    m.st = .ready ∧ m.off = 16 ∧ 0 ≤ a ∧ a + 16 ≤ m.om.size := by
  rw [execFinal_eq, ← Lifecycle.ne_uninitialized]
  split_ifs with hst hw hs ho
  · simp [hst]
  · simp only [false_iff]; omega
  · simp only [false_iff]; omega
  · simp only [true_iff]; exact ⟨hst, ho, by omega, by omega⟩
  · simp [ho]

/-- Settles O15: UPDATE and FINAL by the equation of each; the other four commands always answer. -/
theorem onlyRestingAtSixteenFaults : Obligations.OnlyRestingAtSixteenFaults := by
  intro i m
  cases i with
  | update a l => simp [execUpdate_fault_iff, and_assoc]
  | final a => simp [execFinal_fault_iff]
  | loadkey a l => simp [execLoadkey_eq]
  | reset => simp [execReset_eq]
  | taglen => simp [execTaglen_eq]
  | dispose => simp [execDispose_eq]

end Sys2Proof.Machine
end

section
/-! The register port, hardware reset, and what the host cannot see (spec/10_state.md R18, R21, R23). -/

namespace Sys2Proof.Machine

/-- Settles O22: register 0 is STATUS, every other number reads 0, a write does nothing. -/
theorem registerPortIsReadOnly : Obligations.RegisterPortIsReadOnly := by
  intro n v m
  have hread : ∀ n, perform (.readRegister n) m = .next (observe (.register (registerValue n m)) m) := fun _ => rfl
  refine ⟨rfl, fun hn => ?_, rfl⟩
  rw [hread, registerValue, if_neg hn]
  rfl

/-! ### Hardware reset (R21, R120) -/

namespace Memory

/-- The cells that give an OM of n bytes the contents f. -/
def contentsOf (n : Nat) (f : Nat → Byte) : List Host.Cell := (List.range n).map fun x => (x, f x)

theorem ofCells_contentsOf_succ (size n : Nat) (f : Nat → Byte) :
    ofCells size (contentsOf (n + 1) f) = (ofCells size (contentsOf n f)).write n (f n) := by
  simp [ofCells, contentsOf, List.range_succ]

/-- U1: OM can hold any bytes. -/
theorem read_ofCells_contentsOf {size n x : Nat} (f : Nat → Byte) (hn : n ≤ size) (hx : x < n) :
    (ofCells size (contentsOf n f)).read x = f x := by
  induction n with
  | zero => omega
  | succ n ih =>
    rw [ofCells_contentsOf_succ]
    by_cases hxn : x = n
    · subst hxn
      exact read_write_same (ofCells_wf ..) (by rw [ofCells_size]; omega) _
    · rw [read_write_other _ hxn]
      exact ih (by omega) (by omega)

end Memory

theorem perform_hardwareReset_eq (contents : List Host.Cell) (m : State) : perform (.hardwareReset contents) m =
    .next (State.afterReset (Memory.ofCells m.om.size contents) m.commandPort m.observed) := rfl

/-- DISPOSE leaves OM, answers 0, and every register is as after reset (R92). -/
theorem execDispose_eq_afterReset (m : State) :
    exec .dispose m = .next (State.afterReset m.om m.commandPort (m.observed ++ [.response 0])) := by
  have hrsp : responseWord 0#8 0#8 0#1 = 0#32 := by decide
  rw [execDispose_eq]
  congr 1
  apply State.ext_fields <;> simp [CompletionCode.number, Lifecycle.bit, hrsp]

theorem step_idle {m : State} (h : m.commandPort = []) : step m = .next m := by
  obtain ⟨-, hwait⟩ | ⟨act, rest, hport, -⟩ := step_cases m
  · exact hwait
  · simp [h] at hport

/-- Settles O10: the state after hardware reset is `State.afterReset`, DISPOSE's with another OM and no response; its OM can be given
any contents cell by cell. -/
theorem hardwareResetClearsRegisters : Obligations.HardwareResetClearsRegisters := by
  refine ⟨fun m contents => ?_, fun m f => ?_, rfl, rfl, rfl, rfl, rfl, rfl, rfl, rfl⟩
  · exact ⟨_, perform_hardwareReset_eq contents m, rfl, rfl, rfl, rfl, rfl, rfl, rfl, rfl, Memory.ofCells_size .., rfl, rfl,
      step_idle, _, execDispose_eq_afterReset m, rfl⟩
  · exact ⟨Memory.contentsOf m.om.size f, _, perform_hardwareReset_eq _ m,
      fun x hx => Memory.read_ofCells_contentsOf f le_rfl hx⟩

/-! ### Noninterference (R23) -/

/-- What the host can learn of a command's end states is the same, the bytes of OM that the command writes apart. -/
structure AnswersAlike (i : Instr) (t₁ t₂ : State) : Prop where
  status : t₁.status = t₂.status
  observed : t₁.observed = t₂.observed
  st : t₁.st = t₂.st
  size : t₁.om.size = t₂.om.size
  read : ∀ x, ¬ i.Writes x → t₁.om.read x = t₂.om.read x

/-- A response depends on the lifecycle state alone, never on a secret register. -/
theorem AnswersAlike.answer {i : Instr} {m₁ m₂ : State} (hst : m₁.st = m₂.st) (hobs : m₁.observed = m₂.observed)
    (hsize : m₁.om.size = m₂.om.size) (hread : ∀ x, ¬ i.Writes x → m₁.om.read x = m₂.om.read x) (code val : Byte) :
    AnswersAlike i (m₁.answer (responseWord code val m₁.st.bit)) (m₂.answer (responseWord code val m₂.st.bit)) where
  status := by simp only [State.answer_status, hst]
  observed := by simp only [State.answer_observed, hobs, hst]
  st := hst
  size := hsize
  read := hread

/-- The bytes FINAL writes are those of `Instr.Writes`. -/
theorem read_writeWords4_of_not_writes {a : Int} (h0 : 0 ≤ a) (om : Memory) (w : Words4) {x : Nat}
    (hx : ¬ (Instr.final a).Writes x) : (om.writeWords4 a.toNat w).read x = om.read x := by
  refine Memory.read_writeBytes_outside om _ _ ?_
  simp only [Instr.Writes] at hx
  simp only [wordBytes, List.length_append, List.length_cons, List.length_nil]
  omega

theorem AnswersAlike.respond {i : Instr} {m₁ m₂ : State} (hst : m₁.st = m₂.st) (hobs : m₁.observed = m₂.observed)
    (hsize : m₁.om.size = m₂.om.size) (hread : ∀ x, ¬ i.Writes x → m₁.om.read x = m₂.om.read x) (code : CompletionCode) (val : Byte) :
    AnswersAlike i (respond code val m₁) (respond code val m₂) := .answer hst hobs hsize hread code.number val

/-- Two engines with the same ST, OM and record pass the same checks and answer alike, whatever their other registers. -/
theorem exec_answersAlike (i : Instr) {m₁ m₂ : State} (hoff₁ : m₁.off.val ≤ 15) (hoff₂ : m₂.off.val ≤ 15)
    (hst : m₁.st = m₂.st) (hom : m₁.om = m₂.om) (hobs : m₁.observed = m₂.observed) :
    ∃ t₁ t₂, exec i m₁ = .next t₁ ∧ exec i m₂ = .next t₂ ∧ AnswersAlike i t₁ t₂ := by
  have hfail : ∀ code, AnswersAlike i (failedWith code m₁) (failedWith code m₂) := fun code =>
    .answer hst hobs (by rw [hom]) (fun _ _ => by rw [hom]) code 0
  have h16₁ := off_ne_sixteen hoff₁
  have h16₂ := off_ne_sixteen hoff₂
  cases i with
  | loadkey a l =>
    refine ⟨_, _, execLoadkey_eq .., execLoadkey_eq .., ?_⟩
    rw [hst, hom]
    split_ifs
    · exact hfail 4
    · exact hfail 1
    · exact hfail 2
    · unfold loadkeyResult
      exact .respond (by simp) (by simp [hobs]) (by simp [hom]) (by simp [hom]) .ok 0
  | update a l =>
    simp only [execUpdate_eq, h16₁, h16₂, false_and, if_false, hst, hom]
    split_ifs
    · exact ⟨_, _, rfl, rfl, hfail 4⟩
    · exact ⟨_, _, rfl, rfl, hfail 2⟩
    · refine ⟨_, _, rfl, rfl, ?_⟩
      unfold updateResult
      exact .respond (by simp [hst]) (by simp [hobs]) (by simp [hom]) (by simp [hom]) .ok 0
  | final a =>
    simp only [execFinal_eq, h16₁, h16₂, if_false, hst, hom]
    split_ifs
    · exact ⟨_, _, rfl, rfl, hfail 4⟩
    · exact ⟨_, _, rfl, rfl, hfail 2⟩
    · exact ⟨_, _, rfl, rfl, hfail 3⟩
    · refine ⟨_, _, rfl, rfl, ?_⟩
      unfold finalResult
      refine .respond (by simp [hst]) (by simp [hobs]) (by simp [hom]) (fun x hx => ?_) .ok 0
      simp only [clearMessageState_om, State.setMemory_om]
      rw [read_writeWords4_of_not_writes (by omega) _ _ hx, read_writeWords4_of_not_writes (by omega) _ _ hx, hom]
  | reset =>
    refine ⟨_, _, execReset_eq _, execReset_eq _, ?_⟩
    exact .respond (by simp [hst]) (by simp [hobs]) (by simp [hom]) (by simp [hom]) .ok 0
  | taglen => exact ⟨_, _, execTaglen_eq _, execTaglen_eq _, .respond hst hobs (by rw [hom]) (by simp [hom]) .ok 16⟩
  | dispose =>
    refine ⟨_, _, execDispose_eq _, execDispose_eq _, ?_⟩
    exact .respond (by simp) (by simp [hobs]) (by simp [hom]) (by simp [hom]) .ok 0

/-- Settles O23: command by command, the two engines pass the same checks and give the same answer. -/
theorem secretsHaveNoReadPath : Obligations.SecretsHaveNoReadPath := by
  intro i m₁ m₂ hoff₁ hoff₂ hst hom hobs
  obtain ⟨t₁, t₂, h₁, h₂, ha⟩ := exec_answersAlike i hoff₁ hoff₂ hst hom hobs
  exact ⟨t₁, t₂, h₁, h₂, ha.status, ha.observed, ha.st, ha.size, ha.read⟩

end Sys2Proof.Machine
end

section
/-! The step and what it refuses (spec/20_memory.md R31, R37; spec/93_implementation_defined.md U2). -/

namespace Sys2Proof.Machine

theorem step_pending {m : State} {act : HostAction} {rest : List HostAction} (h : m.commandPort = act :: rest) :
    step m = perform act { m with commandPort := rest } := by
  obtain ⟨hport, -⟩ | ⟨_, _, hport, hact⟩ := step_cases m
  · cases h.symm.trans hport
  · cases h.symm.trans hport
    exact hact

/-- Settles O7: an idle step, and a step with an action pending. -/
theorem stepPerformsOldestAction : Obligations.StepPerformsOldestAction := fun _ _ _ => ⟨step_idle, step_pending⟩

/-! ### Host accesses to OM (R31, U2) -/

theorem perform_hostWrite_outside {a : Int} {bytes : List Byte} {m : State} (h : HostWindowOutside a bytes.length m.om) :
    perform (.hostWrite a bytes) m = .refused .hostAccessOutside := if_pos h

theorem perform_hostWrite_inside {a : Int} {bytes : List Byte} {m : State} (h : ¬ HostWindowOutside a bytes.length m.om) :
    perform (.hostWrite a bytes) m = .next (m.setMemory (m.om.writeBytes a.toNat bytes)) := if_neg h

theorem perform_hostRead_outside {a : Int} {n : Nat} {m : State} (h : HostWindowOutside a n m.om) :
    perform (.hostRead a n) m = .refused .hostAccessOutside := if_pos h

theorem perform_hostRead_inside {a : Int} {n : Nat} {m : State} (h : ¬ HostWindowOutside a n m.om) :
    perform (.hostRead a n) m = .next (observe (.memory (m.om.readBytes a.toNat n)) m) := if_neg h

theorem acceptCommand_not_refused (cw : CommandWord) (m : State) (e : Refusal) : acceptCommand cw m ≠ .refused e := by
  cases hd : decode cw with
  | command i => rw [acceptCommand_command hd]; exact exec_not_refused i m e
  | illegal why => rw [acceptCommand_illegal hd]; nofun

/-- Of the host's actions only an access outside OM is refused. -/
theorem perform_refused {act : HostAction} {m : State} {e : Refusal} (h : perform act m = .refused e) :
    (∃ a bytes, act = .hostWrite a bytes ∧ HostWindowOutside a bytes.length m.om) ∨
    (∃ a n, act = .hostRead a n ∧ HostWindowOutside a n m.om) := by
  cases act with
  | command cw => exact absurd h (acceptCommand_not_refused cw m e)
  | hostWrite a bytes =>
    by_cases hw : HostWindowOutside a bytes.length m.om
    · exact .inl ⟨a, bytes, rfl, hw⟩
    · rw [perform_hostWrite_inside hw] at h; cases h
  | hostRead a n =>
    by_cases hw : HostWindowOutside a n m.om
    · exact .inr ⟨a, n, rfl, hw⟩
    · rw [perform_hostRead_inside hw] at h; cases h
  | readRegister n => cases h
  | writeRegister n v => cases h
  | hardwareReset contents => cases h

/-- Settles O16: a step that is refused has an action pending, and a pending access outside OM is refused. -/
theorem onlyOutsideHostAccessesAreRefused : Obligations.OnlyOutsideHostAccessesAreRefused := by
  intro m
  constructor
  · rintro ⟨e, h⟩
    obtain ⟨-, hwait⟩ | ⟨_, rest, hport, hact⟩ := step_cases m
    · cases hwait.symm.trans h
    · obtain ⟨a, bytes, rfl, hw⟩ | ⟨a, n, rfl, hw⟩ := perform_refused (hact.symm.trans h)
      · exact ⟨rest, .inl ⟨a, bytes, hport, hw⟩⟩
      · exact ⟨rest, .inr ⟨a, n, hport, hw⟩⟩
  · rintro ⟨rest, ⟨a, bytes, hport, hw⟩ | ⟨a, n, hport, hw⟩⟩
    · exact ⟨_, (step_pending hport).trans (perform_hostWrite_outside hw)⟩
    · exact ⟨_, (step_pending hport).trans (perform_hostRead_outside hw)⟩

/-- A write of several bytes is the first byte's write, then the rest's (R31). -/
theorem perform_hostWrite_cons {a : Int} (b : Byte) {bytes : List Byte} {m : State} (h0 : 0 ≤ a)
    (h1 : a + 1 + (bytes.length : Int) ≤ m.om.size) : ∃ t, perform (.hostWrite a [b]) m = .next t ∧
      perform (.hostWrite a (b :: bytes)) m = perform (.hostWrite (a + 1) bytes) t := by
  have hfirst : ¬ HostWindowOutside a [b].length m.om := by simp only [List.length_singleton]; omega
  have hwhole : ¬ HostWindowOutside a (b :: bytes).length m.om := by simp only [List.length_cons]; omega
  refine ⟨_, perform_hostWrite_inside hfirst, ?_⟩
  have hrest : ¬ HostWindowOutside (a + 1) bytes.length (m.setMemory (m.om.writeBytes a.toNat [b])).om := by
    simp only [HostWindowOutside, State.setMemory_om, Memory.writeBytes_size]; omega
  rw [perform_hostWrite_inside hwhole, perform_hostWrite_inside hrest, show (a + 1).toNat = a.toNat + 1 by omega]
  rfl

/-- Settles O51: outside OM by the two refusals; inside, by what `Memory.writeBytes` and `Memory.readBytes` do. -/
theorem hostAccessesAreByteExact : Obligations.HostAccessesAreByteExact := by
  intro a n b bytes m hwf
  refine ⟨perform_hostWrite_outside, perform_hostRead_outside, fun h0 h1 => ?_, fun h0 h1 => ?_, perform_hostWrite_cons b⟩
  · refine ⟨_, perform_hostWrite_inside (by omega), rfl, Memory.writeBytes_size .., Memory.writeBytes_wf hwf .., ?_, fun x hx => ?_⟩
    · exact Memory.readBytes_writeBytes hwf _ _ (by omega)
    · exact Memory.read_writeBytes_outside _ _ _ (by omega)
  · exact perform_hostRead_inside (by omega)

end Sys2Proof.Machine
end

section
/-! A command's word, presented to the engine, runs that command (spec/20_memory.md R39; spec/30_encoding.md R50 to R53). -/

namespace Sys2Proof

@[simp] theorem op_assemble (p : BitVec 8) (a l : Int) : CommandWord.op (assemble p a l) = p := (fields_assemble p a l).1

@[simp] theorem rsv_assemble (p : BitVec 8) (a l : Int) : CommandWord.rsv (assemble p a l) = 0 := (fields_assemble p a l).2.1

@[simp] theorem offsetField_assemble (p : BitVec 8) (a l : Int) :
    CommandWord.offsetField (assemble p a l) = BitVec.ofInt 32 a := (fields_assemble p a l).2.2.1

@[simp] theorem lengthField_assemble (p : BitVec 8) (a l : Int) :
    CommandWord.lengthField (assemble p a l) = BitVec.ofInt 32 l := (fields_assemble p a l).2.2.2

/-- R57: the word of a command with an encoding decodes to the command. -/
theorem decode_encode {i : Instr} (h : WellFormed i = true) : decode (encode i) = .command i := by
  cases i with
  | loadkey a l =>
    simp only [WellFormed, Bool.and_eq_true, decide_eq_true_eq] at h
    simp [encode, decode, decodeOL, sext32_ofInt h.1, sext32_ofInt h.2]
  | update a l =>
    simp only [WellFormed, Bool.and_eq_true, decide_eq_true_eq] at h
    simp [encode, decode, decodeOL, sext32_ofInt h.1, sext32_ofInt h.2]
  | final a =>
    simp only [WellFormed, decide_eq_true_eq] at h
    simp [encode, decode, decodeO, sext32_ofInt h]
  | reset => decide
  | taglen => decide
  | dispose => decide

theorem ofNat_toNat_mod (cw : CommandWord) : BitVec.ofNat 96 (cw.toNat % 2 ^ 96) = cw := by
  rw [Nat.mod_eq_of_lt cw.isLt, BitVec.ofNat_toNat, BitVec.setWidth_eq]

theorem decodeTableWord_toNat {cw : CommandWord} {i : Instr} (h : decode cw = .command i) :
    decodeTableWord 96 cw.toNat = some i := by
  simp only [decodeTableWord, le_refl, if_true, ofNat_toNat_mod, h]

namespace Machine

theorem withFetchWord_toNat (m : State) (cw : CommandWord) : m.withFetchWord 96 cw.toNat = presentCommand cw m := by
  rw [State.withFetchWord, ofNat_toNat_mod]

theorem step_presentCommand (cw : CommandWord) (m : State) : step (presentCommand cw m) = acceptCommand cw m :=
  step_pending (presentCommand_commandPort cw m)

/-- Settles O9: the presented word is the oldest action, and it decodes to its command. -/
theorem presentedWordRunsNext : Obligations.PresentedWordRunsNext := by
  intro i m h
  refine ⟨?_, decodeTableWord_toNat (decode_encode h)⟩
  rw [withFetchWord_toNat, step_presentCommand, acceptCommand_command (decode_encode h)]

end Machine

end Sys2Proof
end

section
/-! A word is its four bytes, little-endian (spec/20_memory.md R34). -/

namespace Sys2Proof.Machine

theorem le32_toNat_eq_leNat (b : Nat → Byte) (i : Nat) :
    (le32 b i).toNat = leNat [b i, b (i + 1), b (i + 2), b (i + 3)] := by
  rw [le32_toNat]
  simp only [leNat]
  ring

/-- Four bytes are determined by their number. -/
theorem wordBytes_le32 (b : Nat → Byte) (i : Nat) : wordBytes (le32 b i) = [b i, b (i + 1), b (i + 2), b (i + 3)] := by
  calc wordBytes (le32 b i)
      = leBytes 4 (leNat (wordBytes (le32 b i))) := (leBytes_leNat (wordBytes (le32 b i))).symm
    _ = leBytes 4 (leNat [b i, b (i + 1), b (i + 2), b (i + 3)]) := by rw [wordBytes_leNat, le32_toNat_eq_leNat]
    _ = [b i, b (i + 1), b (i + 2), b (i + 3)] := leBytes_leNat [b i, b (i + 1), b (i + 2), b (i + 3)]

/-- Settles O52: the number of the word read, and the bytes of the word written. -/
theorem wordsAreLittleEndian : Obligations.WordsAreLittleEndian := fun b i w =>
  ⟨le32_toNat b i, wordBytes_le32 b i, wordBytes_leNat w⟩

end Sys2Proof.Machine
end

section
/-! What a command reads and writes of OM (spec/20_memory.md R32). A command on another OM that agrees on the bytes it is told to read
does the same: operation by operation, replacing OM commutes with it. -/

namespace Sys2Proof.Machine

/-! ### The bytes a command writes -/

/-- A command leaves every byte of OM that it is not told to write, and a failing one leaves them all. -/
theorem exec_read_of_not_writes {i : Instr} {m t : State} {x : Nat} (h : exec i m = .next t)
    (hx : ¬ i.Writes x ∨ statusCode t.status ≠ 0) : t.om.read x = m.om.read x := by
  obtain ⟨_, -, rfl⟩ | ⟨_, -, -, -, -, rfl⟩ | ⟨_, _, -, -, -, -, -, -, rfl⟩ | ⟨a, rfl, -, h0, -, -, rfl⟩ | ⟨-, rfl⟩ | ⟨-, rfl⟩ |
    ⟨-, rfl⟩ := exec_cases h
  case inr.inr.inr.inl =>
    rw [finalResult_status, statusCode_responseWord] at hx
    rw [finalResult_om]
    exact read_writeWords4_of_not_writes h0 m.om _ (hx.resolve_right (not_not_intro rfl))
  all_goals simp only [failedWith_om, loadkeyResult_om, updateResult_om, respond_om, clearMessageState_om, clearKeySchedule_om]

/-- The 16 bytes FINAL writes are the tag's, whatever was there. -/
theorem read_writeWords4_of_writes {a : Int} {om om' : Memory} (hwf : om.wf) (hwf' : om'.wf) (hsize : om'.size = om.size)
    (h1 : a + 16 ≤ om.size) (w : Words4) {x : Nat} (hx : (Instr.final a).Writes x) (h0 : 0 ≤ a) :
    (om'.writeWords4 a.toNat w).read x = (om.writeWords4 a.toNat w).read x := by
  obtain ⟨hlo, hhi⟩ : a ≤ x ∧ (x : Int) < a + 16 := hx
  obtain ⟨j, rfl⟩ : ∃ j, x = a.toNat + j := ⟨x - a.toNat, by omega⟩
  have hlen : (wordBytes w.x0 ++ wordBytes w.x1 ++ wordBytes w.x2 ++ wordBytes w.x3).length = 16 := rfl
  unfold Memory.writeWords4
  rw [Memory.read_writeBytes_inside hwf' _ _ (by omega) (by omega), Memory.read_writeBytes_inside hwf _ _ (by omega) (by omega)]

/-! ### Replacing OM -/

theorem State.setMemory_setMemory (m : State) (om om' : Memory) : (m.setMemory om).setMemory om' = m.setMemory om' := rfl

theorem respond_setMemory (code : CompletionCode) (val : Byte) (m : State) (om : Memory) :
    respond code val (m.setMemory om) = (respond code val m).setMemory om := rfl

theorem clearMessageState_setMemory (m : State) (om : Memory) :
    clearMessageState (m.setMemory om) = (clearMessageState m).setMemory om := rfl

/-! ### The bytes LOADKEY reads -/

theorem le32_congr {b c : Nat → Byte} {i : Nat} (h : ∀ j, j < i + 4 → b j = c j) : le32 b i = le32 c i := by
  simp only [le32, h i (by omega), h (i + 1) (by omega), h (i + 2) (by omega), h (i + 3) (by omega)]

/-- The key schedule is made of the 32 key bytes (40_key_schedule.md R61 to R63). -/
theorem loadKeySchedule_congr {b c : Nat → Byte} (h : ∀ j, j < 32 → b j = c j) (m : State) :
    loadKeySchedule b m = loadKeySchedule c m := by
  have hword : ∀ i, i ≤ 28 → le32 b i = le32 c i := fun i hi => le32_congr fun j hj => h j (by omega)
  have hclamp : clamp b = clamp c := by
    simp only [clamp, hword 0 (by omega), hword 4 (by omega), hword 8 (by omega), hword 12 (by omega)]
  have hmask : maskWords b = maskWords c := by
    simp only [maskWords, hword 16 (by omega), hword 20 (by omega), hword 24 (by omega), hword 28 (by omega)]
  rw [loadKeySchedule, loadKeySchedule, hclamp, hmask]

theorem loadkeyResult_setMemory {a : Int} {m : State} {om : Memory}
    (h : ∀ j, j < 32 → om.read (a.toNat + j) = m.om.read (a.toNat + j)) :
    loadkeyResult a (m.setMemory om) = (loadkeyResult a m).setMemory om := by
  rw [loadkeyResult, State.setMemory_om, loadKeySchedule_congr h]
  rfl

/-! ### The bytes UPDATE reads -/

theorem absorbByte_setMemory (m : State) (om : Memory) (b : Byte) :
    absorbByte (m.setMemory om) b = (absorbByte m b).setMemory om := by
  unfold absorbByte foldIfFull
  simp only [bufferByte_off, State.setMemory_off]
  split_ifs <;> rfl

theorem absorbBytes_setMemory (m : State) (om : Memory) (bs : List Byte) :
    absorbBytes (m.setMemory om) bs = (absorbBytes m bs).setMemory om := by
  induction bs generalizing m with
  | nil => rfl
  | cons b bs ih => rw [absorbBytes_cons, absorbByte_setMemory, ih, absorbBytes_cons]

theorem updateResult_setMemory {a l : Int} {m : State} {om : Memory}
    (h : om.readBytes a.toNat l.toNat = m.om.readBytes a.toNat l.toNat) :
    updateResult a l (m.setMemory om) = (updateResult a l m).setMemory om := by
  rw [updateResult, State.setMemory_om, h, absorbBytes_setMemory, respond_setMemory, updateResult]

/-! ### FINAL reads no byte -/

theorem flushPartial_setMemory (m : State) (om : Memory) :
    flushPartial (m.setMemory om) = (flushPartial m).setMemory om :=
  (apply_ite (State.setMemory · om) (m.off = 0) m (foldPartial m)).symm

theorem tagWords_setMemory (m : State) (om : Memory) : tagWords (m.setMemory om) = tagWords m := by
  rw [tagWords, flushPartial_setMemory, State.setMemory_h, State.setMemory_k, tagWords]

theorem finalResult_setMemory (a : Int) (m : State) (om : Memory) :
    finalResult a (m.setMemory om) = (finalResult a m).setMemory (om.writeWords4 a.toNat (tagWords m)) := by
  rw [finalResult, finalResult, tagWords_setMemory, ← respond_setMemory, ← clearMessageState_setMemory, State.setMemory_setMemory,
    State.setMemory_setMemory, State.setMemory_om]

/-! ### Every command -/

/-- Where a command takes m to t, it takes m on OM `om` to the same t on OM `om'`; and in memories of canonical form a success writes
the same bytes of both. -/
structure SameOnMemory (i : Instr) (m t : State) (om om' : Memory) : Prop where
  runs : exec i (m.setMemory om) = .next (t.setMemory om')
  written : m.om.wf → om.wf → statusCode t.status = 0 → ∀ x, i.Writes x → om'.read x = t.om.read x

/-- A command does the same on an OM of the same size that agrees, if it succeeds, on the bytes it is told to read. The checks see
only the size, so it fails alike on both. -/
theorem exec_setMemory {i : Instr} {m t : State} {om : Memory} (h : exec i m = .next t) (hsize : om.size = m.om.size)
    (hreads : statusCode t.status = 0 → ∀ x, i.Reads x → om.read x = m.om.read x) : ∃ om', SameOnMemory i m t om om' := by
  cases i with
  | loadkey a l =>
    rw [execLoadkey_eq] at h
    refine ⟨om, ?_, nofun⟩
    rw [execLoadkey_eq, State.setMemory_st, State.setMemory_om, hsize]
    split_ifs at h ⊢ with hst hl hw <;> cases h
    · rfl
    · rfl
    · rfl
    · rw [loadkeyResult_setMemory fun j hj => hreads (by simp) _ ⟨by omega, by omega⟩]
  | update a l =>
    rw [execUpdate_eq] at h
    refine ⟨om, ?_, nofun⟩
    rw [execUpdate_eq, State.setMemory_st, State.setMemory_om, State.setMemory_off, hsize]
    split_ifs at h ⊢ with hst hw ho <;> cases h
    · rfl
    · rfl
    · rw [updateResult_setMemory (Memory.readBytes_congr fun x hlo hhi => hreads (by simp) x ⟨by omega, by omega⟩)]
  | final a =>
    rw [execFinal_eq] at h
    have hfail : ∀ {code : Byte}, code ≠ 0 → exec (.final a) (m.setMemory om) = .next (failedWith code (m.setMemory om)) →
        SameOnMemory (.final a) m (failedWith code m) om om := fun hcode hrun =>
      ⟨hrun, fun _ _ hok => absurd ((statusCode_responseWord ..).symm.trans hok) hcode⟩
    have hrun := execFinal_eq a (m.setMemory om)
    rw [State.setMemory_st, State.setMemory_om, State.setMemory_off, hsize] at hrun
    split_ifs at h hrun with hst hw hs ho <;> cases h
    · exact ⟨om, hfail (by decide) hrun⟩
    · exact ⟨om, hfail (by decide) hrun⟩
    · exact ⟨om, hfail (by decide) hrun⟩
    · refine ⟨om.writeWords4 a.toNat (tagWords m), by rw [hrun, finalResult_setMemory], fun hwf hwf' _ x hx => ?_⟩
      rw [finalResult_om]
      exact read_writeWords4_of_writes hwf hwf' hsize (by omega) _ hx (by omega)
  | reset => cases h; exact ⟨om, rfl, nofun⟩
  | taglen => cases h; exact ⟨om, rfl, nofun⟩
  | dispose => cases h; exact ⟨om, rfl, nofun⟩

/-- Settles O50: the frame of the command on each OM, and the same command on the other OM. -/
theorem commandsAccessOnlyTheirWindows : Obligations.CommandsAccessOnlyTheirWindows := by
  intro i m hoff
  obtain ⟨t, ht⟩ := exec_completes i hoff
  refine ⟨t, ht, fun x => exec_read_of_not_writes ht, fun om hsize hreads => ?_⟩
  obtain ⟨om', hruns, hwritten⟩ := exec_setMemory ht hsize hreads
  exact ⟨t.setMemory om', hruns, rfl, fun x => exec_read_of_not_writes (m := m.setMemory om) hruns, hwritten⟩

end Sys2Proof.Machine
end

section
/-! Which command words are which commands (spec/30_encoding.md R50 to R56): decoding read off the four fields, once in both
directions, and from it the round trips, the signed immediates, the rows of R53's table and the illegal words of R54. -/

open Sys2Proof.CommandWord

namespace Sys2Proof

/-- Settles O2: for every immediate of R52's range, sign extension undoes the truncation to a field. -/
theorem decodeEncodeRoundTrip : Obligations.DecodeEncodeRoundTrip := fun _ => decode_encode

/-! ### Decoding by fields -/

/-- What OP, A and L of a command's word are, RSV being zero (R51, R53). -/
def Instr.HasFields (cw : CommandWord) : Instr → Prop
  | .loadkey a l => op cw = 1 ∧ a = sext32 (offsetField cw) ∧ l = sext32 (lengthField cw)
  | .update a l => op cw = 2 ∧ a = sext32 (offsetField cw) ∧ l = sext32 (lengthField cw)
  | .final a => op cw = 3 ∧ lengthField cw = 0 ∧ a = sext32 (offsetField cw)
  | .reset => op cw = 4 ∧ offsetField cw = 0 ∧ lengthField cw = 0
  | .taglen => op cw = 5 ∧ offsetField cw = 0 ∧ lengthField cw = 0
  | .dispose => op cw = 6 ∧ offsetField cw = 0 ∧ lengthField cw = 0

theorem decode_eq_command_iff {cw : CommandWord} {i : Instr} : decode cw = .command i ↔ rsv cw = 0 ∧ i.HasFields cw := by
  constructor
  · intro h
    obtain ⟨hr, ⟨hp, rfl⟩ | ⟨hp, rfl⟩ | ⟨hp, hl, rfl⟩ | ⟨ha, hl, ⟨hp, rfl⟩ | ⟨hp, rfl⟩ | ⟨hp, rfl⟩⟩⟩ := decode_command_cases h
    · exact ⟨hr, hp, rfl, rfl⟩
    · exact ⟨hr, hp, rfl, rfl⟩
    · exact ⟨hr, hp, hl, rfl⟩
    · exact ⟨hr, hp, ha, hl⟩
    · exact ⟨hr, hp, ha, hl⟩
    · exact ⟨hr, hp, ha, hl⟩
  · rintro ⟨hr, hf⟩
    cases i with
    | loadkey a l => obtain ⟨hp, rfl, rfl⟩ := hf; simp [decode, hr, hp, decodeOL]
    | update a l => obtain ⟨hp, rfl, rfl⟩ := hf; simp [decode, hr, hp, decodeOL]
    | final a => obtain ⟨hp, hl, rfl⟩ := hf; simp [decode, hr, hp, decodeO, hl]
    | reset => obtain ⟨hp, ha, hl⟩ := hf; simp [decode, hr, hp, decodeN, ha, hl]
    | taglen => obtain ⟨hp, ha, hl⟩ := hf; simp [decode, hr, hp, decodeN, ha, hl]
    | dispose => obtain ⟨hp, ha, hl⟩ := hf; simp [decode, hr, hp, decodeN, ha, hl]

/-- A command is one of the six. -/
theorem Instr.exists_iff {P : Instr → Prop} : (∃ i, P i) ↔
    (∃ a l, P (.loadkey a l)) ∨ (∃ a l, P (.update a l)) ∨ (∃ a, P (.final a)) ∨ P .reset ∨ P .taglen ∨ P .dispose := by
  constructor
  · rintro ⟨i, h⟩
    cases i with
    | loadkey a l => exact .inl ⟨a, l, h⟩
    | update a l => exact .inr (.inl ⟨a, l, h⟩)
    | final a => exact .inr (.inr (.inl ⟨a, h⟩))
    | reset => exact .inr (.inr (.inr (.inl h)))
    | taglen => exact .inr (.inr (.inr (.inr (.inl h))))
    | dispose => exact .inr (.inr (.inr (.inr (.inr h))))
  · rintro (⟨a, l, h⟩ | ⟨a, l, h⟩ | ⟨a, h⟩ | h | h | h) <;> exact ⟨_, h⟩

/-! ### The immediates, and the one word of a command -/

/-- Settles O6: the fields of the command's word, sign extended. -/
theorem immediatesAreSignedFields : Obligations.ImmediatesAreSignedFields := by
  intro cw a l
  simp only [decode_eq_command_iff, Instr.HasFields, sext32_eq_toInt]
  exact ⟨fun ⟨_, _, himm⟩ => himm, fun ⟨_, _, himm⟩ => himm, fun ⟨_, _, _, ha⟩ => ha⟩

/-- A word with RSV = 0 is assembled from its own fields. -/
theorem assemble_eq {cw : CommandWord} {p : BitVec 8} {a l : Int} (hr : rsv cw = 0) (hp : op cw = p)
    (ha : offsetField cw = BitVec.ofInt 32 a) (hl : lengthField cw = BitVec.ofInt 32 l) : assemble p a l = cw := by
  rw [assemble, ← hr, ← hp, ← ha, ← hl, ← commandWord_eq_fields]

theorem encode_of_decode {cw : CommandWord} {i : Instr} (h : decode cw = .command i) : encode i = cw := by
  obtain ⟨hr, hf⟩ := decode_eq_command_iff.mp h
  cases i with
  | loadkey a l => obtain ⟨hp, rfl, rfl⟩ := hf; exact assemble_eq hr hp (ofInt_sext32 _).symm (ofInt_sext32 _).symm
  | update a l => obtain ⟨hp, rfl, rfl⟩ := hf; exact assemble_eq hr hp (ofInt_sext32 _).symm (ofInt_sext32 _).symm
  | final a => obtain ⟨hp, hl, rfl⟩ := hf; exact assemble_eq hr hp (ofInt_sext32 _).symm hl
  | reset => obtain ⟨hp, ha, hl⟩ := hf; exact assemble_eq hr hp ha hl
  | taglen => obtain ⟨hp, ha, hl⟩ := hf; exact assemble_eq hr hp ha hl
  | dispose => obtain ⟨hp, ha, hl⟩ := hf; exact assemble_eq hr hp ha hl

theorem wellFormed_of_decode {cw : CommandWord} {i : Instr} (h : decode cw = .command i) : WellFormed i = true := by
  have himm : ∀ v : BitVec 32, decide (ImmediateInRange (sext32 v)) = true := fun v => decide_eq_true (immediateInRange_sext32 v)
  obtain ⟨-, hf⟩ := decode_eq_command_iff.mp h
  cases i with
  | loadkey a l => obtain ⟨-, rfl, rfl⟩ := hf; exact Bool.and_eq_true_iff.mpr ⟨himm _, himm _⟩
  | update a l => obtain ⟨-, rfl, rfl⟩ := hf; exact Bool.and_eq_true_iff.mpr ⟨himm _, himm _⟩
  | final a => obtain ⟨-, -, rfl⟩ := hf; exact himm _
  | reset => rfl
  | taglen => rfl
  | dispose => rfl

/-- Settles O3: a command's word is assembled from the fields it was decoded from, and a sign-extended field is in range. -/
theorem encodeDecodeRoundTrip : Obligations.EncodeDecodeRoundTrip := fun _ _ h => ⟨wellFormed_of_decode h, encode_of_decode h⟩

/-! ### The rows of R53's table -/

/-- Masking and matching a word is masking and matching each of its fields. -/
theorem and_fields_eq_iff (cw : CommandWord) (lm am l a : BitVec 32) (rm r : BitVec 24) (pm p : BitVec 8) :
    cw &&& (lm ++ (am ++ (rm ++ pm))) = l ++ (a ++ (r ++ p)) ↔
      rsv cw &&& rm = r ∧ op cw &&& pm = p ∧ offsetField cw &&& am = a ∧ lengthField cw &&& lm = l := by
  have hand : cw &&& (lm ++ (am ++ (rm ++ pm))) =
      (lengthField cw &&& lm) ++ ((offsetField cw &&& am) ++ ((rsv cw &&& rm) ++ (op cw &&& pm))) := by
    rw [← append_and_append, ← append_and_append, ← append_and_append, ← commandWord_eq_fields]
  rw [hand, append_eq_append_iff, append_eq_append_iff, append_eq_append_iff]
  tauto

/-- The mask of format OL: RSV and OP must match. -/
theorem maskOL_eq_iff (cw : CommandWord) (p : BitVec 8) :
    cw &&& 0x00000000_00000000_FFFFFFFF = assemble p 0 0 ↔ rsv cw = 0 ∧ op cw = p := by
  refine (and_fields_eq_iff cw 0#32 0#32 0 0 (BitVec.allOnes 24) 0 (BitVec.allOnes 8) p).trans ?_
  simp only [BitVec.and_allOnes, BitVec.and_zero, BitVec.ofNat_eq_ofNat, and_true]

/-- The mask of format O: RSV, OP and L must match. -/
theorem maskO_eq_iff (cw : CommandWord) (p : BitVec 8) :
    cw &&& 0xFFFFFFFF_00000000_FFFFFFFF = assemble p 0 0 ↔ rsv cw = 0 ∧ op cw = p ∧ lengthField cw = 0 := by
  refine (and_fields_eq_iff cw (BitVec.allOnes 32) 0#32 0 0 (BitVec.allOnes 24) 0 (BitVec.allOnes 8) p).trans ?_
  simp only [BitVec.and_allOnes, BitVec.and_zero, BitVec.ofNat_eq_ofNat, true_and]

/-- The mask of format N: every field must match. -/
theorem maskN_eq_iff (cw : CommandWord) (p : BitVec 8) : cw &&& 0xFFFFFFFF_FFFFFFFF_FFFFFFFF = assemble p 0 0 ↔
    rsv cw = 0 ∧ op cw = p ∧ offsetField cw = 0 ∧ lengthField cw = 0 := by
  refine (and_fields_eq_iff cw (BitVec.allOnes 32) (BitVec.allOnes 32) 0 0 (BitVec.allOnes 24) 0 (BitVec.allOnes 8) p).trans ?_
  simp only [BitVec.and_allOnes]

/-- A word selects a row exactly when it decodes to a command of the row. -/
theorem selects_iff_decode (cw : CommandWord) : ∀ row ∈ opcodeTable,
    cw &&& row.mask = row.pattern ↔ ∃ i, decode cw = .command i ∧ i.mnemonic = row.mnemonic := by
  simp only [decode_eq_command_iff, Instr.exists_iff, Instr.HasFields, Instr.mnemonic, opcodeTable, List.forall_mem_cons]
  refine ⟨(maskOL_eq_iff cw 1).trans ?_, (maskOL_eq_iff cw 2).trans ?_, (maskO_eq_iff cw 3).trans ?_, (maskN_eq_iff cw 4).trans ?_,
    (maskN_eq_iff cw 5).trans ?_, (maskN_eq_iff cw 6).trans ?_, nofun⟩ <;> simp

theorem eq_of_mnemonic_eq {row₁ row₂ : OpcodeRow} (h₁ : row₁ ∈ opcodeTable) (h₂ : row₂ ∈ opcodeTable)
    (h : row₁.mnemonic = row₂.mnemonic) : row₁ = row₂ :=
  List.inj_on_of_nodup_map (show (opcodeTable.map OpcodeRow.mnemonic).Nodup by decide) h₁ h₂ h

/-- Settles O4: the table is R53's; two rows selected by one word are the row of the one command it decodes to. -/
theorem opcodeRowSelection : Obligations.OpcodeRowSelection := by
  refine ⟨rfl, rfl, rfl, fun cw => ⟨selects_iff_decode cw, fun row₁ h₁ row₂ h₂ hs₁ hs₂ => ?_⟩⟩
  obtain ⟨i, hi, hmn₁⟩ := (selects_iff_decode cw row₁ h₁).mp hs₁
  obtain ⟨j, hj, hmn₂⟩ := (selects_iff_decode cw row₂ h₂).mp hs₂
  cases hi.symm.trans hj
  exact eq_of_mnemonic_eq h₁ h₂ (hmn₁.symm.trans hmn₂)

/-! ### Illegal words -/

/-- R56: a word is a command or illegal, never both. -/
theorem illegal_iff_no_command (cw : CommandWord) : (∃ why, decode cw = .illegal why) ↔ ¬ ∃ i, decode cw = .command i := by
  cases decode cw <;> simp

theorem exists_command_iff (cw : CommandWord) : (∃ i, decode cw = .command i) ↔ rsv cw = 0 ∧
    (op cw = 1 ∨ op cw = 2 ∨ (op cw = 3 ∧ lengthField cw = 0) ∨
      ((op cw = 4 ∨ op cw = 5 ∨ op cw = 6) ∧ offsetField cw = 0 ∧ lengthField cw = 0)) := by
  simp only [decode_eq_command_iff, Instr.exists_iff, Instr.HasFields]
  simp only [↓existsAndEq, BitVec.ofNat_eq_ofNat, and_true]
  tauto

/-- R54's list is the complement of the rows: in every case a comparison of field values. -/
theorem illegal_iff (cw : CommandWord) : (∃ why, decode cw = .illegal why) ↔
    op cw = 0 ∨ 7 ≤ (op cw).toNat ∨ rsv cw ≠ 0 ∨ (op cw = 3 ∧ lengthField cw ≠ 0) ∨
      ((4 ≤ (op cw).toNat ∧ (op cw).toNat ≤ 6) ∧ (offsetField cw ≠ 0 ∨ lengthField cw ≠ 0)) := by
  rw [illegal_iff_no_command, exists_command_iff]
  bv_omega

/-- Settles O5: the words R54 lists, and the one thing the engine does with an illegal word. -/
theorem illegalWordsChangeOnlyStatus : Obligations.IllegalWordsChangeOnlyStatus := fun cw =>
  ⟨illegal_iff cw, fun _ m h => Machine.acceptCommand_illegal h m⟩

/-- Settles O1: each of the raw words, evaluated. -/
theorem specWordsDecode : Obligations.SpecWordsDecode := by
  unfold Obligations.SpecWordsDecode
  decide

end Sys2Proof
end

section
/-! What the engine does with a command word it accepts: it runs the command, and one response word answers it (spec/30_encoding.md
R54 to R56). -/

namespace Sys2Proof.Machine

/-- Settles O8: the step performs the oldest action, and a command word is decoded, then run or failed. -/
theorem stepRunsDecodedCommand : Obligations.StepRunsDecodedCommand := fun _ _ _ hport =>
  ⟨fun _ hd => (step_pending hport).trans (acceptCommand_command hd _), fun _ hd =>
    (step_pending hport).trans (acceptCommand_illegal hd _)⟩

/-! ### The response word (R55) -/

/-- From `m` to `t` the host is answered with one response word that carries `val`; STATUS holds it. -/
structure Answered (val : Byte) (m t : State) : Prop where
  observed : t.observed = m.observed ++ [.response t.status]
  status : ∃ code : Byte, code.toNat ≤ 5 ∧ t.status = responseWord code val t.st.bit

theorem CompletionCode.number_le (code : CompletionCode) : code.number.toNat ≤ 5 := by cases code <;> decide

/-- A command may write other registers before it answers. -/
theorem answered_respond (code : CompletionCode) (val : Byte) {m m' : State} (h : m'.observed = m.observed) :
    Answered val m (respond code val m') where
  observed := by rw [respond_observed, respond_status, h]
  status := ⟨code.number, code.number_le, by rw [respond_status, respond_st]⟩

theorem answered_failedWith {code : Byte} (h : code.toNat ≤ 5) (m : State) : Answered 0 m (failedWith code m) where
  observed := rfl
  status := ⟨code, h, rfl⟩

theorem exec_answered {i : Instr} {m t : State} (h : exec i m = .next t) : Answered (if i = .taglen then 16 else 0) m t := by
  split_ifs with hi
  · subst hi
    cases h
    exact answered_respond .ok 16 rfl
  · obtain ⟨code, hcode, rfl⟩ | ⟨_, -, -, -, -, rfl⟩ | ⟨_, _, -, -, -, -, -, -, rfl⟩ | ⟨_, -, -, -, -, -, rfl⟩ | ⟨-, rfl⟩ |
      ⟨htag, -⟩ | ⟨-, rfl⟩ := exec_cases h
    · exact answered_failedWith (by rcases hcode with rfl | rfl | rfl | rfl <;> decide) m
    · exact answered_respond .ok 0 (by simp)
    · exact answered_respond .ok 0 (by simp)
    · exact answered_respond .ok 0 (by simp)
    · exact answered_respond .ok 0 (by simp)
    · exact absurd htag hi
    · exact answered_respond .ok 0 (by simp)

theorem acceptCommand_answered {cw : CommandWord} {m t : State} (h : acceptCommand cw m = .next t) :
    Answered (if decode cw = .command .taglen then 16 else 0) m t := by
  cases hd : decode cw with
  | command i => simpa using exec_answered (acceptCommand_command hd m ▸ h)
  | illegal why =>
    rw [acceptCommand_illegal hd] at h
    cases h
    simpa using answered_failedWith (code := 5) (by decide) m

/-- A command word is carried out in every state that does not rest at off = 16. -/
theorem acceptCommand_completes (cw : CommandWord) {m : State} (h : m.off.val ≤ 15) : ∃ t, acceptCommand cw m = .next t := by
  cases hd : decode cw with
  | command i => rw [acceptCommand_command hd]; exact exec_completes i h
  | illegal why => exact ⟨_, acceptCommand_illegal hd m⟩

theorem Lifecycle.bit_eq (st : Lifecycle) : st.bit = if st = .ready then 1 else 0 := by cases st <;> rfl

/-- Settles O17: the command completes, is answered, and the fields of the response word are as it was built. -/
theorem everyCommandAnswersInStatus : Obligations.EveryCommandAnswersInStatus := by
  intro cw m hoff
  obtain ⟨t, ht⟩ := acceptCommand_completes cw hoff
  obtain ⟨hobs, code, hcode, hstatus⟩ := acceptCommand_answered ht
  refine ⟨t, ht, hobs, ?_⟩
  rw [hstatus, ← Lifecycle.bit_eq]
  obtain ⟨hc, hv, hr, hz⟩ := status_fields code (if decode cw = .command .taglen then 16 else 0) t.st.bit
  exact ⟨(congrArg BitVec.toNat hc).trans_le hcode, hv, hr, hz⟩

end Sys2Proof.Machine
end

section
/-! LOADKEY and the key schedule it leaves (spec/40_key_schedule.md R60 to R65). -/

namespace Sys2Proof.Machine

/-! ### The words of the key (R60, R61, R63) -/

/-- The word LOADKEY makes of four key bytes is the one their number names. -/
theorem ofNat_readBytes_eq_le32 (om : Memory) (a i : Nat) :
    BitVec.ofNat 32 (leNat (om.readBytes (a + i) 4)) = le32 (fun j => om.read (a + j)) i := by
  have hbytes := le32_toNat_eq_leNat (fun j => om.read (a + j)) i
  rw [← BitVec.setWidth_eq (le32 _ i), ← BitVec.ofNat_toNat, hbytes]
  rfl

theorem loadkeyResult_k_val (a : Int) (m : State) : (loadkeyResult a m).k.val = leNat (m.om.readBytes (a.toNat + 16) 16) := by
  simp only [loadkeyResult_k, maskWords_val, readBytes_eq_firstBytes, Nat.add_assoc]

/-- Besides the key schedule LOADKEY clears the message state, makes the engine Ready, and answers. -/
theorem loadkeyResult_frame (a : Int) (m : State) : loadkeyResult a m =
    { m with r := (loadkeyResult a m).r, s := (loadkeyResult a m).s, k := (loadkeyResult a m).k, h := ⟨0, 0, 0, 0, 0⟩,
             buf := Vector.replicate 16 0, off := 0, st := .ready, status := 0x00010000,
             observed := m.observed ++ [.response 0x00010000] } :=
  respond_ready rfl

/-- Settles O24: each failure by the check that comes to it; the registers by the words of the key. -/
theorem loadkeyLoadsKeySchedule : Obligations.LoadkeyLoadsKeySchedule := by
  intro a l m
  refine ⟨fun hst => ?_, fun hst hl => ?_, fun hst hl hw => ?_, fun hst hl h0 h1 => ?_⟩
  · rw [execLoadkey_eq, if_pos hst]
  · rw [execLoadkey_eq, if_neg (by rw [hst]; decide), if_pos hl]
  · rw [execLoadkey_eq, if_neg (by rw [hst]; decide), if_neg (not_not_intro hl), if_pos hw]
  · subst hl
    refine ⟨_, loadkey_completes hst h0 h1, ?_⟩
    simp only [ofNat_readBytes_eq_le32]
    exact ⟨rfl, rfl, rfl, rfl, rfl, rfl, rfl, loadkeyResult_k_val a m, loadkeyResult_frame a m⟩

/-! ### The clamp as one mask (R64) -/

/-- The five 26-bit limbs of a 128-bit number, read off its four words by R61's shifts. -/
theorem limbs_of_words (b : Nat → Byte) :
    (le32 b 0).toNat % 2 ^ 26 = leNat (firstBytes b 16) / 2 ^ 0 % 2 ^ 26 ∧
    ((le32 b 0 >>> 26) ||| (le32 b 4 <<< 6)).toNat % 2 ^ 26 = leNat (firstBytes b 16) / 2 ^ 26 % 2 ^ 26 ∧
    ((le32 b 4 >>> 20) ||| (le32 b 8 <<< 12)).toNat % 2 ^ 26 = leNat (firstBytes b 16) / 2 ^ 52 % 2 ^ 26 ∧
    ((le32 b 8 >>> 14) ||| (le32 b 12 <<< 18)).toNat % 2 ^ 26 = leNat (firstBytes b 16) / 2 ^ 78 % 2 ^ 26 ∧
    (le32 b 12 >>> 8).toNat % 2 ^ 26 = leNat (firstBytes b 16) / 2 ^ 104 % 2 ^ 26 := by
  have h0 := (le32 b 0).isLt
  have h1 := (le32 b 4).isLt
  have h2 := (le32 b 8).isLt
  have h3 := (le32 b 12).isLt
  rw [straddle_toNat _ _ 26 6 rfl, straddle_toNat _ _ 20 12 rfl, straddle_toNat _ _ 14 18 rfl, BitVec.toNat_ushiftRight,
    Nat.shiftRight_eq_div_pow, leNat_firstBytes_sixteen]
  refine ⟨?_, ?_, ?_, ?_, ?_⟩ <;> omega

/-- Masking a number masks each of its 26-bit limbs. -/
theorem and_limb (n c s : Nat) : (n &&& c) / 2 ^ s % 2 ^ 26 = (n / 2 ^ s % 2 ^ 26) &&& (c / 2 ^ s % 2 ^ 26) := by
  rw [Nat.and_div_two_pow, Nat.and_mod_two_pow]

/-- A limb under its own mask is the same limb of the number under the whole mask `c`. -/
theorem and_mask_toNat {x mask : Word} {n c s : Nat} (hx : x.toNat % 2 ^ 26 = n / 2 ^ s % 2 ^ 26)
    (hmask : mask.toNat = c / 2 ^ s % 2 ^ 26) : (x &&& mask).toNat = (n &&& c) / 2 ^ s % 2 ^ 26 := by
  rw [and_limb, ← hx, ← hmask, BitVec.toNat_and]
  exact and_mask_mod _ _ (by omega)

/-- Each limb mask of R61 is a limb of the one 128-bit mask. -/
theorem clamp_limbs (b : Nat → Byte) :
    (clamp b).x0.toNat = clampNumber (leNat (firstBytes b 16)) / 2 ^ 0 % 2 ^ 26 ∧
    (clamp b).x1.toNat = clampNumber (leNat (firstBytes b 16)) / 2 ^ 26 % 2 ^ 26 ∧
    (clamp b).x2.toNat = clampNumber (leNat (firstBytes b 16)) / 2 ^ 52 % 2 ^ 26 ∧
    (clamp b).x3.toNat = clampNumber (leNat (firstBytes b 16)) / 2 ^ 78 % 2 ^ 26 ∧
    (clamp b).x4.toNat = clampNumber (leNat (firstBytes b 16)) / 2 ^ 104 % 2 ^ 26 := by
  obtain ⟨h0, h1, h2, h3, h4⟩ := limbs_of_words b
  exact ⟨and_mask_toNat h0 rfl, and_mask_toNat h1 rfl, and_mask_toNat h2 rfl, and_mask_toNat h3 rfl, and_mask_toNat h4 rfl⟩

theorem clampNumber_lt (n : Nat) : clampNumber n < 2 ^ 124 :=
  Nat.lt_of_le_of_lt Nat.and_le_right (by decide)

/-- R64: the value of r is the clamped number of the first key half. -/
theorem clamp_val (b : Nat → Byte) : (clamp b).val = clampNumber (leNat (firstBytes b 16)) := by
  obtain ⟨h0, h1, h2, h3, h4⟩ := clamp_limbs b
  have hlt := clampNumber_lt (leNat (firstBytes b 16))
  rw [Limbs.val, h0, h1, h2, h3, h4]
  omega

/-- Settles O25: r is the clamp of the key bytes, and its limbs are the 26-bit digits of its value. -/
theorem keyClampIsOneMask : Obligations.KeyClampIsOneMask := by
  intro a m hst h0 h1
  refine ⟨_, loadkey_completes hst h0 h1, ?_⟩
  rw [loadkeyResult_r, readBytes_eq_firstBytes]
  obtain ⟨hx0, hrest⟩ := clamp_limbs fun j => m.om.read (a.toNat + j)
  rw [pow_zero, Nat.div_one] at hx0
  exact ⟨clamp_val _, hx0, hrest⟩

/-! ### The lifetime of the key schedule (R65) -/

/-- LOADKEY fails when a key is loaded, and of the other commands only DISPOSE writes r, s or k. -/
theorem exec_keeps_keySchedule {i : Instr} {m t : State} (hst : m.st = .ready) (hi : i ≠ .dispose) (h : exec i m = .next t) :
    t.r = m.r ∧ t.s = m.s ∧ t.k = m.k := by
  obtain ⟨code, -, rfl⟩ | ⟨_, -, hun, -⟩ | ⟨_, _, -, -, -, -, -, -, rfl⟩ | ⟨_, -, -, -, -, -, rfl⟩ | ⟨-, rfl⟩ | ⟨-, rfl⟩ |
    ⟨hdis, -⟩ := exec_cases h
  · exact ⟨rfl, rfl, rfl⟩
  · cases hst.symm.trans hun
  · exact ⟨updateResult_r .., updateResult_s .., updateResult_k ..⟩
  · exact ⟨finalResult_r .., finalResult_s .., finalResult_k ..⟩
  · exact ⟨rfl, rfl, rfl⟩
  · exact ⟨rfl, rfl, rfl⟩
  · exact absurd hdis hi

/-- Settles O27: a word is a command other than DISPOSE, or illegal and then changes only STATUS. -/
theorem keyScheduleIsImmutableOnceLoaded : Obligations.KeyScheduleIsImmutableOnceLoaded := by
  intro cw m t hst h hne
  cases hd : decode cw with
  | command i => exact exec_keeps_keySchedule hst (fun hi => hne (hd.trans (congrArg _ hi))) (acceptCommand_command hd m ▸ h)
  | illegal why =>
    rw [acceptCommand_illegal hd] at h
    cases h
    exact ⟨rfl, rfl, rfl⟩

end Sys2Proof.Machine
end

section
/-! The block fold as arithmetic modulo P (spec/41_block_accumulator.md R71 to R75): AddBlock adds the block's number, MulReduce
multiplies, CarryPropagate keeps the value; together one step of Horner's rule. -/

namespace Sys2Proof.Machine

/-! ### AddBlock (R72) -/

/-- The 2^128 term of a full block, on limb 4. -/
theorem blockLimbs_x4_toNat (full : Bool) (b : Nat → Byte) :
    (blockLimbs full b).x4.toNat = (le32 b 12).toNat / 2 ^ 8 + (if full then 2 ^ 24 else 0) := by
  have hlt := (le32 b 12).isLt
  have hshift : (le32 b 12 >>> 8).toNat = (le32 b 12).toNat / 2 ^ 8 := by
    rw [BitVec.toNat_ushiftRight, Nat.shiftRight_eq_div_pow]
  cases full
  · exact hshift
  · show ((0x01000000 : Word) + (le32 b 12 >>> 8)).toNat = (le32 b 12).toNat / 2 ^ 8 + 2 ^ 24
    rw [BitVec.toNat_add, hshift, show (0x01000000 : Word).toNat = 2 ^ 24 from rfl]
    omega

/-- The limbs of a block are the 26-bit digits of its number. -/
theorem blockLimbs_toNat (full : Bool) (b : Nat → Byte) :
    (blockLimbs full b).x0.toNat = leNat (firstBytes b 16) % 2 ^ 26 ∧
    (blockLimbs full b).x1.toNat = leNat (firstBytes b 16) / 2 ^ 26 % 2 ^ 26 ∧
    (blockLimbs full b).x2.toNat = leNat (firstBytes b 16) / 2 ^ 52 % 2 ^ 26 ∧
    (blockLimbs full b).x3.toNat = leNat (firstBytes b 16) / 2 ^ 78 % 2 ^ 26 ∧
    (blockLimbs full b).x4.toNat = leNat (firstBytes b 16) / 2 ^ 104 + (if full then 2 ^ 24 else 0) := by
  obtain ⟨h0, h1, h2, h3, -⟩ := limbs_of_words b
  rw [pow_zero, Nat.div_one] at h0
  have htop : (le32 b 12).toNat / 2 ^ 8 = leNat (firstBytes b 16) / 2 ^ 104 := by
    have l0 := (le32 b 0).isLt
    have l4 := (le32 b 4).isLt
    have l8 := (le32 b 8).isLt
    rw [leNat_firstBytes_sixteen]
    omega
  exact ⟨(and_limbMask_toNat _).trans h0, (and_limbMask_toNat _).trans h1, (and_limbMask_toNat _).trans h2,
    (and_limbMask_toNat _).trans h3, by rw [blockLimbs_x4_toNat, htop]⟩

theorem leNat_firstBytes_lt (b : Nat → Byte) (n : Nat) : leNat (firstBytes b n) < 2 ^ (8 * n) := by
  have := leNat_lt (firstBytes b n)
  rwa [firstBytes_length] at this

theorem blockLimbs_val (full : Bool) (b : Nat → Byte) :
    (blockLimbs full b).val = leNat (firstBytes b 16) + (if full then 2 ^ 128 else 0) := by
  obtain ⟨h0, h1, h2, h3, h4⟩ := blockLimbs_toNat full b
  have hB := leNat_firstBytes_lt b 16
  rw [Limbs.val, h0, h1, h2, h3, h4]
  cases full <;> simp only [if_true, Bool.false_eq_true, if_false] <;> omega

/-- Within R22's bounds no limb of the sum wraps. -/
theorem addBlock_val (full : Bool) (b : Nat → Byte) {h : Limbs} (hh : AccumulatorBounded h) :
    (addBlock full b h).val = h.val + leNat (firstBytes b 16) + (if full then 2 ^ 128 else 0) := by
  obtain ⟨h0, h1, h2, h3, h4⟩ := hh
  obtain ⟨b0, b1, b2, b3, b4⟩ := blockLimbs_le full b
  have hsum : (addBlock full b h).val = h.val + (blockLimbs full b).val := by
    simp only [Limbs.val, addBlock, addLimbs, BitVec.toNat_add]
    omega
  rw [hsum, blockLimbs_val, Nat.add_assoc]

/-- Settles O33: the digits of the block, the limb-wise sum, and its value. -/
theorem addBlockAddsTheBlockNumber : Obligations.AddBlockAddsTheBlockNumber := by
  intro full b h
  obtain ⟨h0, h1, h2, h3, h4⟩ := blockLimbs_toNat full b
  exact ⟨h0, h1, h2, h3, h4, rfl, addBlock_val full b⟩

/-! ### MulReduce (R73) -/

/-- One row of MulReduce: the limbs of h times five multipliers, summed in 64 bits. -/
def mulRow (h : Limbs) (y0 y1 y2 y3 y4 : Word) : DWord :=
  mul64 h.x0 y0 + mul64 h.x1 y1 + mul64 h.x2 y2 + mul64 h.x3 y3 + mul64 h.x4 y4

/-- The same row over the integers. -/
def Limbs.dot (h : Limbs) (y0 y1 y2 y3 y4 : Word) : Nat :=
  h.x0.toNat * y0.toNat + h.x1.toNat * y1.toNat + h.x2.toNat * y2.toNat + h.x3.toNat * y3.toNat + h.x4.toNat * y4.toNat

theorem mulReduce_eq_mulRow (h r : Limbs) (s : Multiples) : mulReduce h r s =
    ⟨mulRow h r.x0 s.x4 s.x3 s.x2 s.x1, mulRow h r.x1 r.x0 s.x4 s.x3 s.x2, mulRow h r.x2 r.x1 r.x0 s.x4 s.x3,
      mulRow h r.x3 r.x2 r.x1 r.x0 s.x4, mulRow h r.x4 r.x3 r.x2 r.x1 r.x0⟩ := rfl

/-- The bounds of h between AddBlock and MulReduce, limb 4 at most `top`. -/
def SumBounded (top : Nat) (h : Limbs) : Prop :=
  h.x0.toNat ≤ 0x07FFFFFE ∧ h.x1.toNat ≤ 0x08000024 ∧ h.x2.toNat ≤ 0x07FFFFFE ∧ h.x3.toNat ≤ 0x07FFFFFE ∧ h.x4.toNat ≤ top

theorem SumBounded.dot_le {top : Nat} {h : Limbs} (hh : SumBounded top h) (y0 y1 y2 y3 y4 : Word) : h.dot y0 y1 y2 y3 y4 ≤
    0x07FFFFFE * y0.toNat + 0x08000024 * y1.toNat + 0x07FFFFFE * y2.toNat + 0x07FFFFFE * y3.toNat + top * y4.toNat := by
  obtain ⟨h0, h1, h2, h3, h4⟩ := hh
  unfold Limbs.dot
  gcongr

theorem mulRow_toNat {h : Limbs} {y0 y1 y2 y3 y4 : Word} (hlt : h.dot y0 y1 y2 y3 y4 < 2 ^ 57) :
    (mulRow h y0 y1 y2 y3 y4).toNat = h.dot y0 y1 y2 y3 y4 := by
  simp only [mulRow, Limbs.dot] at hlt ⊢
  rw [row_toNat] <;> simp only [mul64_toNat]
  omega

/-- R73's "no wrap": every row of MulReduce is its integer sum, below 2^57. -/
theorem mulReduce_toNat {h r : Limbs} {s : Multiples} (hr : KeyClamped r) (hs : MultiplesExact r s) (hh : SumBounded 0x07FFFFFE h) :
    ((mulReduce h r s).t0.toNat = h.dot r.x0 s.x4 s.x3 s.x2 s.x1 ∧ (mulReduce h r s).t1.toNat = h.dot r.x1 r.x0 s.x4 s.x3 s.x2 ∧
     (mulReduce h r s).t2.toNat = h.dot r.x2 r.x1 r.x0 s.x4 s.x3 ∧ (mulReduce h r s).t3.toNat = h.dot r.x3 r.x2 r.x1 r.x0 s.x4 ∧
     (mulReduce h r s).t4.toNat = h.dot r.x4 r.x3 r.x2 r.x1 r.x0) ∧
    (mulReduce h r s).t0.toNat < 2 ^ 57 ∧ (mulReduce h r s).t1.toNat < 2 ^ 57 ∧ (mulReduce h r s).t2.toNat < 2 ^ 57 ∧
    (mulReduce h r s).t3.toNat < 2 ^ 57 ∧ (mulReduce h r s).t4.toNat < 2 ^ 57 := by
  obtain ⟨r0, r1, r2, r3, r4⟩ := clamped_bounds hr
  obtain ⟨s1, s2, s3, s4⟩ := multiples_bounds hr hs
  have lt0 : h.dot r.x0 s.x4 s.x3 s.x2 s.x1 < 2 ^ 57 := (hh.dot_le ..).trans_lt (by omega)
  have lt1 : h.dot r.x1 r.x0 s.x4 s.x3 s.x2 < 2 ^ 57 := (hh.dot_le ..).trans_lt (by omega)
  have lt2 : h.dot r.x2 r.x1 r.x0 s.x4 s.x3 < 2 ^ 57 := (hh.dot_le ..).trans_lt (by omega)
  have lt3 : h.dot r.x3 r.x2 r.x1 r.x0 s.x4 < 2 ^ 57 := (hh.dot_le ..).trans_lt (by omega)
  have lt4 : h.dot r.x4 r.x3 r.x2 r.x1 r.x0 < 2 ^ 57 := (hh.dot_le ..).trans_lt (by omega)
  rw [mulReduce_eq_mulRow]
  simp only [mulRow_toNat lt0, mulRow_toNat lt1, mulRow_toNat lt2, mulRow_toNat lt3, mulRow_toNat lt4, true_and]
  exact ⟨lt0, lt1, lt2, lt3, lt4⟩

/-- The part of the product of two limb vectors at 2^130 and above, which MulReduce brings down by the factor 5. -/
def Limbs.highProduct (h r : Limbs) : Nat :=
  (h.x1.toNat * r.x4.toNat + h.x2.toNat * r.x3.toNat + h.x3.toNat * r.x2.toNat + h.x4.toNat * r.x1.toNat) +
  (h.x2.toNat * r.x4.toNat + h.x3.toNat * r.x3.toNat + h.x4.toNat * r.x2.toNat) * 2 ^ 26 +
  (h.x3.toNat * r.x4.toNat + h.x4.toNat * r.x3.toNat) * 2 ^ 52 + h.x4.toNat * r.x4.toNat * 2 ^ 78

/-- Since 2^130 = P + 5, the rows fall short of the product by P times its high part. -/
theorem val_mul_val_eq {h r : Limbs} {s : Multiples} (hr : KeyClamped r) (hs : MultiplesExact r s) (hh : SumBounded 0x07FFFFFE h) :
    h.val * r.val = (mulReduce h r s).val + Config.modulus * h.highProduct r := by
  obtain ⟨⟨e0, e1, e2, e3, e4⟩, -⟩ := mulReduce_toNat hr hs hh
  obtain ⟨s1, s2, s3, s4⟩ := hs
  rw [PartialSums.val, e0, e1, e2, e3, e4, show Config.modulus = 2 ^ 130 - 5 from rfl]
  simp only [Limbs.dot, Limbs.val, Limbs.highProduct, s1, s2, s3, s4, Nat.reducePow, Nat.reduceSub]
  ring

theorem mulReduce_val_mod {h r : Limbs} {s : Multiples} (hr : KeyClamped r) (hs : MultiplesExact r s) (hh : SumBounded 0x07FFFFFE h) :
    (mulReduce h r s).val % Config.modulus = (h.val * r.val) % Config.modulus := by
  rw [val_mul_val_eq hr hs hh, Nat.add_mul_mod_self_left]

/-- Settles O34: the rows at 64 bits as the rule has them; within the bounds they are integers and multiply modulo P. -/
theorem mulReduceMultipliesModP : Obligations.MulReduceMultipliesModP := by
  refine ⟨fun h r s => ⟨rfl, rfl, rfl, rfl, rfl⟩, fun h r s hr hs h0 h1 h2 h3 h4 => ?_⟩
  have hh : SumBounded 0x07FFFFFE h := ⟨h0, h1, h2, h3, h4⟩
  obtain ⟨⟨e0, e1, e2, e3, e4⟩, l0, l1, l2, l3, l4⟩ := mulReduce_toNat hr hs hh
  exact ⟨e0, e1, e2, e3, e4, l0, l1, l2, l3, l4, mulReduce_val_mod hr hs hh⟩

/-! ### CarryPropagate (R74) -/

theorem lowLimb_eq_ofNat (t : DWord) : lowLimb t = BitVec.ofNat 32 (t.toNat % 2 ^ 26) := by
  apply BitVec.eq_of_toNat_eq
  rw [lowLimb_toNat, BitVec.toNat_ofNat]
  omega

theorem setWidth_carry_eq_ofNat (t : DWord) : (t >>> 26).setWidth 32 = BitVec.ofNat 32 (t.toNat / 2 ^ 26) := by
  apply BitVec.eq_of_toNat_eq
  rw [BitVec.toNat_setWidth, BitVec.toNat_ushiftRight, BitVec.toNat_ofNat, Nat.shiftRight_eq_div_pow]

/-- The rows after the carries have gone up, each with the carry of the one below. -/
def carriedRows (tp : PartialSums) : PartialSums :=
  let t1 := tp.t1 + (tp.t0 >>> 26)
  let t2 := tp.t2 + (t1 >>> 26)
  let t3 := tp.t3 + (t2 >>> 26)
  { t0 := tp.t0, t1 := t1, t2 := t2, t3 := t3, t4 := tp.t4 + (t3 >>> 26) }

/-- The limbs from carried rows: the final carry comes back five times into limb 0, and limb 0 is carried once more. -/
def wrapRows (u : PartialSums) : Limbs :=
  let h0 := BitVec.ofNat 32 (u.t0.toNat % 2 ^ 26) + BitVec.ofNat 32 (u.t4.toNat / 2 ^ 26) * 5
  { x0 := h0 &&& limbMask
    x1 := BitVec.ofNat 32 (u.t1.toNat % 2 ^ 26) + (h0 >>> 26)
    x2 := BitVec.ofNat 32 (u.t2.toNat % 2 ^ 26)
    x3 := BitVec.ofNat 32 (u.t3.toNat % 2 ^ 26)
    x4 := BitVec.ofNat 32 (u.t4.toNat % 2 ^ 26) }

theorem carryPropagate_eq_wrapRows (tp : PartialSums) : carryPropagate tp = wrapRows (carriedRows tp) := by
  simp only [carryPropagate, wrapRows, carriedRows, lowLimb_eq_ofNat, setWidth_carry_eq_ofNat]

theorem add_carry_toNat {t : DWord} (h : t.toNat < 2 ^ 57) (below : DWord) :
    (t + (below >>> 26)).toNat = t.toNat + below.toNat / 2 ^ 26 := by
  have := below.isLt
  rw [BitVec.toNat_add, BitVec.toNat_ushiftRight, Nat.shiftRight_eq_div_pow]
  omega

/-- Rows below 2^57 carry without a wrap. -/
theorem carriedRows_toNat {tp : PartialSums} (l1 : tp.t1.toNat < 2 ^ 57) (l2 : tp.t2.toNat < 2 ^ 57) (l3 : tp.t3.toNat < 2 ^ 57)
    (l4 : tp.t4.toNat < 2 ^ 57) :
    (carriedRows tp).t0.toNat = tp.t0.toNat ∧ (carriedRows tp).t1.toNat = tp.t1.toNat + (carriedRows tp).t0.toNat / 2 ^ 26 ∧
    (carriedRows tp).t2.toNat = tp.t2.toNat + (carriedRows tp).t1.toNat / 2 ^ 26 ∧
    (carriedRows tp).t3.toNat = tp.t3.toNat + (carriedRows tp).t2.toNat / 2 ^ 26 ∧
    (carriedRows tp).t4.toNat = tp.t4.toNat + (carriedRows tp).t3.toNat / 2 ^ 26 :=
  ⟨rfl, add_carry_toNat l1 _, add_carry_toNat l2 _, add_carry_toNat l3 _, add_carry_toNat l4 _⟩

/-- With a final carry within the bound of a reachable fold, five times it and a limb fit 32 bits. -/
theorem wrapRows_toNat {u : PartialSums} (hc : u.t4.toNat / 2 ^ 26 ≤ 0x1E000024) :
    (wrapRows u).x0.toNat = (u.t0.toNat % 2 ^ 26 + 5 * (u.t4.toNat / 2 ^ 26)) % 2 ^ 26 ∧
    (wrapRows u).x1.toNat = u.t1.toNat % 2 ^ 26 + (u.t0.toNat % 2 ^ 26 + 5 * (u.t4.toNat / 2 ^ 26)) / 2 ^ 26 ∧
    (wrapRows u).x2.toNat = u.t2.toNat % 2 ^ 26 ∧ (wrapRows u).x3.toNat = u.t3.toNat % 2 ^ 26 ∧
    (wrapRows u).x4.toNat = u.t4.toNat % 2 ^ 26 := by
  have hlow (n : Nat) : (BitVec.ofNat 32 (n % 2 ^ 26)).toNat = n % 2 ^ 26 := by rw [BitVec.toNat_ofNat]; omega
  have hwrap : (BitVec.ofNat 32 (u.t0.toNat % 2 ^ 26) + BitVec.ofNat 32 (u.t4.toNat / 2 ^ 26) * 5).toNat =
      u.t0.toNat % 2 ^ 26 + 5 * (u.t4.toNat / 2 ^ 26) := by
    rw [BitVec.toNat_add, BitVec.toNat_mul, hlow, BitVec.toNat_ofNat, show (5 : Word).toNat = 5 from rfl]
    omega
  simp only [wrapRows, and_limbMask_toNat, BitVec.toNat_add, BitVec.toNat_ushiftRight, Nat.shiftRight_eq_div_pow, hwrap, hlow,
    and_self, and_true, true_and]
  exact Nat.mod_eq_of_lt (by omega)

theorem SumBounded.mono {low high : Nat} {h : Limbs} (hh : SumBounded low h) (hle : low ≤ high) : SumBounded high h := by
  obtain ⟨h0, h1, h2, h3, h4⟩ := hh
  exact ⟨h0, h1, h2, h3, h4.trans hle⟩

theorem addBlock_sumBounded (full : Bool) (b : Nat → Byte) {h : Limbs} (hh : AccumulatorBounded h) :
    SumBounded 0x05FFFFFE (addBlock full b h) := addBlock_le full b hh

/-- The final carry of a reachable fold. The bound is exact: rows 3 and 4 are taken at their largest. -/
theorem finalCarry_mulReduce_le {h r : Limbs} {s : Multiples} (hr : KeyClamped r) (hs : MultiplesExact r s)
    (hh : SumBounded 0x05FFFFFE h) : (carriedRows (mulReduce h r s)).t4.toNat / 2 ^ 26 ≤ 0x1E000024 := by
  obtain ⟨⟨-, -, -, e3, e4⟩, l0, l1, l2, l3, l4⟩ := mulReduce_toNat hr hs (hh.mono (by decide))
  obtain ⟨c0, c1, c2, c3, c4⟩ := carriedRows_toNat l1 l2 l3 l4
  obtain ⟨r0, r1, r2, r3, r4⟩ := clamped_bounds hr
  obtain ⟨-, -, -, s4⟩ := multiples_bounds hr hs
  have h3 := hh.dot_le r.x3 r.x2 r.x1 r.x0 s.x4
  have h4 := hh.dot_le r.x4 r.x3 r.x2 r.x1 r.x0
  omega

/-- The limbs stand for the rows, less P for each unit of the final carry: 2^130 goes out of row 4 and 5 comes back. -/
theorem carryPropagate_val {tp : PartialSums} (l1 : tp.t1.toNat < 2 ^ 57) (l2 : tp.t2.toNat < 2 ^ 57) (l3 : tp.t3.toNat < 2 ^ 57)
    (l4 : tp.t4.toNat < 2 ^ 57) (hc : (carriedRows tp).t4.toNat / 2 ^ 26 ≤ 0x1E000024) :
    tp.val = (carryPropagate tp).val + Config.modulus * ((carriedRows tp).t4.toNat / 2 ^ 26) := by
  obtain ⟨c0, c1, c2, c3, c4⟩ := carriedRows_toNat l1 l2 l3 l4
  obtain ⟨x0, x1, x2, x3, x4⟩ := wrapRows_toNat hc
  rw [carryPropagate_eq_wrapRows, Limbs.val, PartialSums.val, x0, x1, x2, x3, x4, show Config.modulus = 2 ^ 130 - 5 from rfl]
  omega

theorem carryPropagate_mulReduce_val_mod {h r : Limbs} {s : Multiples} (hr : KeyClamped r) (hs : MultiplesExact r s)
    (hh : SumBounded 0x05FFFFFE h) :
    (carryPropagate (mulReduce h r s)).val % Config.modulus = (mulReduce h r s).val % Config.modulus := by
  obtain ⟨-, -, l1, l2, l3, l4⟩ := mulReduce_toNat hr hs (hh.mono (by decide))
  rw [carryPropagate_val l1 l2 l3 l4 (finalCarry_mulReduce_le hr hs hh), Nat.add_mul_mod_self_left]

/-- Settles O35: the lines at their widths; on the rows of a reachable fold, the carries as integers, the bounds and the value. -/
theorem carryPropagateKeepsTheValue : Obligations.CarryPropagateKeepsTheValue := by
  refine ⟨carryPropagate_eq_wrapRows, fun full b h r s hh hr hs => ?_⟩
  have hsum := addBlock_sumBounded full b hh
  have hc := finalCarry_mulReduce_le hr hs hsum
  obtain ⟨-, -, l1, l2, l3, l4⟩ := mulReduce_toNat hr hs (hsum.mono (by decide))
  obtain ⟨c0, c1, c2, c3, c4⟩ := carriedRows_toNat l1 l2 l3 l4
  obtain ⟨x0, x1, x2, x3, x4⟩ := wrapRows_toNat hc
  rw [← carryPropagate_eq_wrapRows] at x0 x1 x2 x3 x4
  rw [c4, c3, c2, c1, c0] at hc x0 x1 x4
  rw [c3, c2, c1, c0] at x3
  rw [c2, c1, c0] at x2
  exact ⟨hc, x0, x1, x2, x3, x4, foldBlock_bounded full b s hr hh, carryPropagate_mulReduce_val_mod hr hs hsum⟩

/-! ### One block fold (R71, R75) -/

/-- One block fold is one step of Horner's rule modulo P. -/
theorem foldBlock_val_mod (full : Bool) (b : Nat → Byte) {h r : Limbs} {s : Multiples} (hh : AccumulatorBounded h)
    (hr : KeyClamped r) (hs : MultiplesExact r s) : (foldBlock full b r s h).val % Config.modulus =
      ((h.val + (leNat (firstBytes b 16) + (if full then 2 ^ 128 else 0))) * r.val) % Config.modulus := by
  have hsum := addBlock_sumBounded full b hh
  calc (foldBlock full b r s h).val % Config.modulus
      = (mulReduce (addBlock full b h) r s).val % Config.modulus := carryPropagate_mulReduce_val_mod hr hs hsum
    _ = ((addBlock full b h).val * r.val) % Config.modulus := mulReduce_val_mod hr hs (hsum.mono (by decide))
    _ = _ := by rw [addBlock_val full b hh, Nat.add_assoc]

theorem leNat_firstBytes_zeros (n : Nat) : leNat (firstBytes (fun _ => 0) n) = 0 := by
  induction n with
  | zero => rfl
  | succ n ih => rw [firstBytes_succ, leNat, ih]; rfl

/-- A padded block is the pending bytes, 0x01, and zeros (42_finalizer.md R81). -/
theorem firstBytes_padBuffer (buf : Vector Byte 16) {q : Nat} (hq : q ≤ 15) :
    firstBytes (bufByte (padBuffer buf q)) 16 = firstBytes (bufByte buf) q ++ 1 :: firstBytes (fun _ => 0) (15 - q) := by
  have hbytes : firstBytes (bufByte (padBuffer buf q)) q = firstBytes (bufByte buf) q := firstBytes_congr fun j hj => by
    rw [bufByte_padBuffer _ _ (by omega), if_pos hj]
  have hmark : bufByte (padBuffer buf q) (q + 0) = 1 := by
    rw [bufByte_padBuffer _ _ (by omega), if_neg (by omega), if_pos (by omega)]
  have hzeros : firstBytes (fun j => bufByte (padBuffer buf q) (q + (j + 1))) (15 - q) = firstBytes (fun _ => 0) (15 - q) :=
    firstBytes_congr fun j hj => by rw [bufByte_padBuffer _ _ (by omega), if_neg (by omega), if_neg (by omega)]
  rw [show 16 = q + (15 - q + 1) by omega, firstBytes_append, firstBytes_succ, hbytes, hmark, hzeros]

theorem leNat_padBuffer (buf : Vector Byte 16) {q : Nat} (hq : q ≤ 15) :
    leNat (firstBytes (bufByte (padBuffer buf q)) 16) = leNat (firstBytes (bufByte buf) q) + 2 ^ (8 * q) := by
  rw [firstBytes_padBuffer buf hq, leNat_append, firstBytes_length, leNat, leNat_firstBytes_zeros]
  simp

/-- Settles O36: only h is written; its value is Horner's step; and the number of a padded block. -/
theorem blockFoldIsHornerStep : Obligations.BlockFoldIsHornerStep := by
  intro full m
  exact ⟨rfl, fun hr hs hh => ⟨foldBlock_val_mod full _ hh hr hs, foldBlock_bounded full _ m.s hr hh⟩,
    fun q _ hq => leNat_padBuffer m.buf hq⟩

end Sys2Proof.Machine
end

section
/-! UPDATE (spec/41_block_accumulator.md R70, R76): its failures, the loop over the chunk, the bytes left pending, and that the cut of a
message into chunks does not matter. -/

namespace Sys2Proof.Machine

/-! ### The loop (R70) -/

/-- Absorbing writes only h, buf and off. -/
theorem absorbBytes_frame (m : State) (bs : List Byte) : absorbBytes m bs =
    { m with h := (absorbBytes m bs).h, buf := (absorbBytes m bs).buf, off := (absorbBytes m bs).off } :=
  State.ext_fields (absorbBytes_r ..) (absorbBytes_s ..) (absorbBytes_k ..) rfl rfl rfl (absorbBytes_st ..) (absorbBytes_status ..)
    (absorbBytes_om ..) (absorbBytes_commandPort ..) (absorbBytes_observed ..)

/-- A successful UPDATE absorbs the chunk and answers. -/
theorem updateResult_eq (a l : Int) {m : State} (hst : m.st = .ready) : updateResult a l m =
    { absorbBytes m (m.om.readBytes a.toNat l.toNat) with
      status := 0x00010000, observed := m.observed ++ [.response 0x00010000] } := by
  rw [updateResult, respond_ready ((absorbBytes_st ..).trans hst), absorbBytes_observed]

theorem updateResult_frame (a l : Int) {m : State} (hst : m.st = .ready) : updateResult a l m =
    { m with h := (updateResult a l m).h, buf := (updateResult a l m).buf, off := (updateResult a l m).off, status := 0x00010000,
             observed := m.observed ++ [.response 0x00010000] } := by
  rw [updateResult_eq a l hst, absorbBytes_frame]

/-- Any loop body that absorbs a byte where off ≤ 15 absorbs a list of bytes from there. -/
theorem foldl_eq_absorbBytes {body : State → Byte → State} (hbody : ∀ m b, m.off.val ≤ 15 → body m b = absorbByte m b) {m : State}
    (hoff : m.off.val ≤ 15) (bs : List Byte) : bs.foldl body m = absorbBytes m bs := by
  induction bs generalizing m with
  | nil => rfl
  | cons b bs ih => rw [List.foldl_cons, hbody m b hoff, ih (absorbByte_off_le hoff b), absorbBytes_cons]

/-- Settles O28: each failure by the check that comes to it; the loop byte by byte. -/
theorem updateLoopsOverTheChunk : Obligations.UpdateLoopsOverTheChunk := by
  intro a l m
  refine ⟨fun hst => ?_, fun hst hw => ?_, fun hst hoff h0 hl h1 => ?_⟩
  · rw [execUpdate_eq, if_pos hst]
  · rw [execUpdate_eq, if_neg (by rw [hst]; decide), if_pos hw]
  · intro body u
    have hbody : ∀ x b, x.off.val ≤ 15 → body x b = absorbByte x b := fun x b hx => by
      obtain ⟨hlt, h⟩ | ⟨heq, h⟩ := absorbByte_cases hx b <;> rw [h]
      · exact if_neg (by omega)
      · exact if_pos (by omega)
    have hu : u = absorbBytes m (m.om.readBytes a.toNat l.toNat) := foldl_eq_absorbBytes hbody hoff _
    rw [update_completes hst hoff h0 hl h1, updateResult_eq a l hst, hu]

/-- Settles O29: a chunk of one byte is one turn of the loop. -/
theorem updateAbsorbsOneByte : Obligations.UpdateAbsorbsOneByte := by
  intro a m hst hoff h0 h1
  have hone : exec (.update a 1) m = .next (respond .ok 0 (absorbByte m (m.om.read a.toNat))) :=
    update_completes hst hoff h0 (by decide) h1
  refine ⟨_, hone, ?_, ?_, ?_, updateResult_frame a 1 hst⟩ <;> simp only [respond_buf, respond_off, respond_h]
  · exact absorbByte_buf ..
  · intro hlt
    obtain ⟨-, h⟩ | ⟨heq, -⟩ := absorbByte_cases hoff (m.om.read a.toNat)
    · rw [h, State.setBuffer_off, State.setBuffer_h]
      exact ⟨nextOff_val hoff, rfl⟩
    · omega
  · intro heq
    obtain ⟨hlt, -⟩ | ⟨-, h⟩ := absorbByte_cases hoff (m.om.read a.toNat)
    · omega
    · rw [h]
      exact ⟨rfl, rfl⟩

/-- Settles O30: with L = 0 the loop has no turn, and the window ends at A. -/
theorem emptyUpdateChangesOnlyStatus : Obligations.EmptyUpdateChangesOnlyStatus := by
  intro a m hst
  refine ⟨fun h0 h1 => ?_, fun hw => ?_⟩
  · rw [execUpdate_eq, if_neg (by rw [hst]; decide), if_neg (by omega), if_neg (by simp), updateResult_eq a 0 hst]
    rfl
  · rw [execUpdate_eq, if_neg (by rw [hst]; decide), if_pos (by omega)]

/-! ### The pending bytes (R16, R70) -/

/-- The valid bytes of buf. -/
def State.pending (m : State) : List Byte := firstBytes (bufByte m.buf) m.off.val

theorem State.pending_length (m : State) : m.pending.length = m.off.val := firstBytes_length ..

theorem bufByte_setIfInBounds (buf : Vector Byte 16) {n : Nat} (b : Byte) (hn : n < 16) (j : Nat) :
    bufByte (buf.setIfInBounds n b) j = if j = n then b else bufByte buf j := by
  unfold bufByte
  rw [Vector.getElem?_setIfInBounds]
  obtain rfl | hj := eq_or_ne j n
  · rw [if_pos rfl, if_pos rfl, if_pos hn, Option.getD_some]
  · rw [if_neg hj.symm, if_neg hj]

theorem firstBytes_setIfInBounds (buf : Vector Byte 16) {n : Nat} (b : Byte) (hn : n < 16) :
    firstBytes (bufByte (buf.setIfInBounds n b)) (n + 1) = firstBytes (bufByte buf) n ++ [b] := by
  rw [firstBytes_append]
  congr 1
  · exact firstBytes_congr fun j hj => by rw [bufByte_setIfInBounds buf b hn, if_neg (by omega)]
  · rw [firstBytes_succ, firstBytes_zero, bufByte_setIfInBounds buf b hn, Nat.add_zero, if_pos rfl]

/-- One byte absorbed, as to the pending bytes: it joins them, or completes a block and none are left. -/
theorem absorbByte_pending_cases {m : State} (hoff : m.off.val ≤ 15) (b : Byte) :
    (m.off.val < 15 ∧ (absorbByte m b).off.val = m.off.val + 1 ∧ (absorbByte m b).pending = m.pending ++ [b]) ∨
    (m.off.val = 15 ∧ (absorbByte m b).off.val = 0 ∧ (absorbByte m b).pending = []) := by
  obtain ⟨hlt, h⟩ | ⟨heq, h⟩ := absorbByte_cases hoff b
  · have hcount : (absorbByte m b).off.val = m.off.val + 1 := by rw [h, State.setBuffer_off, nextOff_val hoff]
    refine .inl ⟨hlt, hcount, ?_⟩
    rw [State.pending, hcount, absorbByte_buf, firstBytes_setIfInBounds _ _ (by omega), State.pending]
  · have hcount : (absorbByte m b).off.val = 0 := by rw [h, State.setBuffer_off]; rfl
    refine .inr ⟨heq, hcount, ?_⟩
    rw [State.pending, hcount, firstBytes_zero]

/-- Any number of bytes absorbed: they join the pending bytes, and whole blocks go from the front. -/
theorem absorbBytes_pending {m : State} (hoff : m.off.val ≤ 15) (bs : List Byte) :
    (absorbBytes m bs).off.val = (m.off.val + bs.length) % 16 ∧
    (absorbBytes m bs).pending = (m.pending ++ bs).drop (16 * ((m.off.val + bs.length) / 16)) := by
  induction bs generalizing m with
  | nil =>
    rw [absorbBytes_nil, List.length_nil, List.append_nil, show (m.off.val + 0) / 16 = 0 by omega]
    exact ⟨by omega, rfl⟩
  | cons b bs ih =>
    obtain ⟨hcount, hpending⟩ := ih (absorbByte_off_le hoff b)
    rw [absorbBytes_cons, hcount, hpending, List.length_cons]
    obtain ⟨hlt, hoff', hpend'⟩ | ⟨heq, hoff', hpend'⟩ := absorbByte_pending_cases hoff b <;> rw [hoff', hpend']
    · rw [List.append_assoc, List.singleton_append, show m.off.val + 1 + bs.length = m.off.val + (bs.length + 1) by omega]
      exact ⟨rfl, rfl⟩
    · have hblock : (m.pending ++ [b]).length = 16 := by rw [List.length_append, m.pending_length, heq]; rfl
      refine ⟨by omega, ?_⟩
      rw [List.append_cons, show 16 * ((m.off.val + (bs.length + 1)) / 16) = (m.pending ++ [b]).length + 16 * ((0 + bs.length) / 16) by
        omega, List.drop_length_add_append, List.nil_append]

/-- Settles O31: the frame of UPDATE, and the pending bytes after the chunk. -/
theorem updateBuffersTheRemainder : Obligations.UpdateBuffersTheRemainder := by
  intro a l m hst hoff h0 hl h1
  obtain ⟨hcount, hpending⟩ := absorbBytes_pending hoff (m.om.readBytes a.toNat l.toNat)
  rw [Memory.readBytes_length] at hcount hpending
  exact ⟨_, update_completes hst hoff h0 hl h1, updateResult_frame a l hst, by rwa [updateResult_off], by
    rwa [updateResult_off, updateResult_buf]⟩

theorem absorbBytes_off_le {m : State} (hoff : m.off.val ≤ 15) (bs : List Byte) : (absorbBytes m bs).off.val ≤ 15 := by
  rw [(absorbBytes_pending hoff bs).1]
  omega

/-! ### Chunks (R76) -/

/-- Absorbing does not look at STATUS or at what the host was answered. -/
theorem absorbByte_answer (m : State) (rsp : Word) (b : Byte) : absorbByte (m.answer rsp) b = (absorbByte m b).answer rsp := by
  unfold absorbByte foldIfFull
  simp only [bufferByte_off, State.answer_off]
  split_ifs <;> rfl

theorem absorbBytes_respond (code : CompletionCode) (val : Byte) (m : State) (bs : List Byte) :
    absorbBytes (respond code val m) bs = respond code val (absorbBytes m bs) := by
  induction bs generalizing m with
  | nil => rfl
  | cons b bs ih =>
    have hbyte : absorbByte (respond code val m) b = respond code val (absorbByte m b) := by
      rw [respond, absorbByte_answer, respond, absorbByte_st]
    rw [absorbBytes_cons, hbyte, ih, absorbBytes_cons]

/-- Two UPDATEs of adjacent chunks are one of both, answered twice. -/
theorem updateResult_updateResult {a l₁ l₂ : Int} (h0 : 0 ≤ a) (hl₁ : 0 ≤ l₁) (hl₂ : 0 ≤ l₂) (m : State) :
    updateResult (a + l₁) l₂ (updateResult a l₁ m) = respond .ok 0 (updateResult a (l₁ + l₂) m) := by
  have hbytes : m.om.readBytes a.toNat (l₁ + l₂).toNat =
      m.om.readBytes a.toNat l₁.toNat ++ m.om.readBytes (a + l₁).toNat l₂.toNat := by
    rw [Int.toNat_add hl₁ hl₂, Int.toNat_add h0 hl₁, Memory.readBytes_add]
  rw [updateResult, updateResult_om, updateResult, absorbBytes_respond, ← absorbBytes_append, ← hbytes, updateResult]

/-- A second response like the first writes only the record. -/
theorem respond_updateResult (a l : Int) (m : State) : respond .ok 0 (updateResult a l m) =
    { updateResult a l m with observed := (updateResult a l m).observed ++ [.response (updateResult a l m).status] } := by
  have hword : responseWord CompletionCode.ok.number 0 (updateResult a l m).st.bit = (updateResult a l m).status := by
    rw [updateResult_st, updateResult_status, CompletionCode.number]
  rw [respond, hword, State.answer]

/-- UPDATEs of chunks, whatever the host does to OM between them, absorb the bytes of the chunks in order; besides that only OM, STATUS
and the record are written. -/
theorem runUpdates_eq {chunks : List Chunk} (hin : ∀ c ∈ chunks, c.Inside) {m : State} (hst : m.st = .ready) (hoff : m.off.val ≤ 15) :
    ∃ om status observed, runUpdates chunks m =
      some { absorbBytes m (chunks.flatMap Chunk.bytes) with om := om, status := status, observed := observed } := by
  induction chunks generalizing m with
  | nil => exact ⟨m.om, m.status, m.observed, rfl⟩
  | cons c rest ih =>
    obtain ⟨⟨h0, hl, h1⟩, hrest⟩ := List.forall_mem_cons.1 hin
    have hnext : exec (.update c.a c.l) { m with om := c.om } = .next (updateResult c.a c.l (m.setMemory c.om)) :=
      update_completes hst hoff h0 hl h1
    have habsorb : updateResult c.a c.l (m.setMemory c.om) = respond .ok 0 ((absorbBytes m c.bytes).setMemory c.om) := by
      rw [updateResult, absorbBytes_setMemory]
      rfl
    obtain ⟨om, status, observed, hrun⟩ := ih hrest (m := updateResult c.a c.l (m.setMemory c.om)) ((updateResult_st ..).trans hst)
      (by rw [updateResult_off]; exact absorbBytes_off_le (m := m.setMemory c.om) hoff _)
    refine ⟨om, status, observed, ?_⟩
    simp only [runUpdates, hnext]
    rw [updateResult_status, statusCode_responseWord, if_pos rfl, hrun, habsorb, absorbBytes_respond, absorbBytes_setMemory,
      List.flatMap_cons, absorbBytes_append]
    rfl

/-- Settles O32: adjacent chunks by the lemma on two UPDATEs, any chunks because only their bytes are absorbed. -/
theorem chunkIndependence : Obligations.ChunkIndependence := by
  refine ⟨fun a l₁ l₂ m hst hoff h0 hl₁ hl₂ h1 => ?_, fun chunks₁ chunks₂ m hst hoff hin₁ hin₂ hbytes => ?_⟩
  · refine ⟨_, _, _, update_completes hst hoff h0 hl₁ (by omega),
      update_completes ((updateResult_st ..).trans hst) ?_ (by omega) hl₂ ?_,
      update_completes hst hoff h0 (by omega) (by omega), ?_⟩
    · rw [updateResult_off]; exact absorbBytes_off_le hoff _
    · rw [updateResult_om]; omega
    · rw [updateResult_updateResult h0 hl₁ hl₂, respond_updateResult]
  · obtain ⟨om₁, status₁, observed₁, hrun₁⟩ := runUpdates_eq hin₁ hst hoff
    obtain ⟨om₂, status₂, observed₂, hrun₂⟩ := runUpdates_eq hin₂ hst hoff
    rw [← hbytes] at hrun₂
    exact ⟨_, _, hrun₁, hrun₂, rfl, rfl, fun _ _ => rfl⟩

end Sys2Proof.Machine
end

section
/-! The Finalizer's arithmetic (spec/42_finalizer.md R81 to R84): the padded block, the full carry, the residue modulo P, and the sum
with the mask. -/

namespace Sys2Proof.Machine

/-! ### Padding (R81) -/

/-- Settles O37: the byte of the padded buffer before, at and after the mark; `foldPartial` folds that buffer. -/
theorem paddingMarksTheEnd : Obligations.PaddingMarksTheEnd := by
  intro m _ h15
  refine ⟨fun j hj => ?_, ?_, fun j hj h16 => ?_, foldPartial_h m, foldPartial_off m⟩
  · rw [bufByte_padBuffer _ _ (by omega), if_pos hj]
  · rw [bufByte_padBuffer _ _ (by omega), if_neg (lt_irrefl _), if_pos rfl]
  · rw [bufByte_padBuffer _ _ h16, if_neg (by omega), if_neg (by omega)]

/-! ### Carries up the limbs (R82, R83) -/

/-- The limbs with each one's carry added to the limb above and nothing masked: the chain that a carry pass and ReduceSelect share. -/
def carriedLimbs (h : Limbs) : Limbs :=
  let a1 := h.x1 + (h.x0 >>> 26)
  let a2 := h.x2 + (a1 >>> 26)
  let a3 := h.x3 + (a2 >>> 26)
  { x0 := h.x0, x1 := a1, x2 := a2, x3 := a3, x4 := h.x4 + (a3 >>> 26) }

theorem ushiftRight_toNat {n : Nat} (x : BitVec n) (i : Nat) : (x >>> i).toNat = x.toNat / 2 ^ i := by
  rw [BitVec.toNat_ushiftRight, Nat.shiftRight_eq_div_pow]

theorem add_limbCarry_toNat {x : Word} (hx : x.toNat < 2 ^ 31) (below : Word) :
    (x + (below >>> 26)).toNat = x.toNat + below.toNat / 2 ^ 26 := by
  have := below.isLt
  rw [BitVec.toNat_add, ushiftRight_toNat]
  omega

/-- Limbs below 2^31 carry without a wrap. -/
theorem carriedLimbs_toNat {h : Limbs} (l1 : h.x1.toNat < 2 ^ 31) (l2 : h.x2.toNat < 2 ^ 31) (l3 : h.x3.toNat < 2 ^ 31)
    (l4 : h.x4.toNat < 2 ^ 31) :
    (carriedLimbs h).x0.toNat = h.x0.toNat ∧ (carriedLimbs h).x1.toNat = h.x1.toNat + (carriedLimbs h).x0.toNat / 2 ^ 26 ∧
    (carriedLimbs h).x2.toNat = h.x2.toNat + (carriedLimbs h).x1.toNat / 2 ^ 26 ∧
    (carriedLimbs h).x3.toNat = h.x3.toNat + (carriedLimbs h).x2.toNat / 2 ^ 26 ∧
    (carriedLimbs h).x4.toNat = h.x4.toNat + (carriedLimbs h).x3.toNat / 2 ^ 26 :=
  ⟨rfl, add_limbCarry_toNat l1 _, add_limbCarry_toNat l2 _, add_limbCarry_toNat l3 _, add_limbCarry_toNat l4 _⟩

/-! ### FullCarry (R82) -/

theorem carryPass_eq_carriedLimbs (h : Limbs) : carryPass h =
    ⟨((carriedLimbs h).x0 &&& limbMask) + ((carriedLimbs h).x4 >>> 26) * 5, (carriedLimbs h).x1 &&& limbMask,
      (carriedLimbs h).x2 &&& limbMask, (carriedLimbs h).x3 &&& limbMask, (carriedLimbs h).x4 &&& limbMask⟩ := rfl

/-- A carry pass as integers: the 26-bit digits of the carried limbs, five times the carry out of limb 4 on the lowest. -/
theorem carryPass_toNat (h : Limbs) :
    (carryPass h).x0.toNat = (carriedLimbs h).x0.toNat % 2 ^ 26 + 5 * ((carriedLimbs h).x4.toNat / 2 ^ 26) ∧
    (carryPass h).x1.toNat = (carriedLimbs h).x1.toNat % 2 ^ 26 ∧ (carryPass h).x2.toNat = (carriedLimbs h).x2.toNat % 2 ^ 26 ∧
    (carryPass h).x3.toNat = (carriedLimbs h).x3.toNat % 2 ^ 26 ∧ (carryPass h).x4.toNat = (carriedLimbs h).x4.toNat % 2 ^ 26 := by
  have := (carriedLimbs h).x4.isLt
  rw [carryPass_eq_carriedLimbs]
  simp only [and_limbMask_toNat, BitVec.toNat_add, BitVec.toNat_mul, ushiftRight_toNat, show (5 : Word).toNat = 5 from rfl,
    and_self, and_true]
  omega

/-- What one pass leaves of a reachable accumulator: only limb 0 may exceed 26 bits, and then limb 1 has room for its carry. -/
def OncePassed (x : Limbs) : Prop :=
  x.x0.toNat ≤ 0x03FFFFFF + 5 ∧ x.x1.toNat ≤ 0x03FFFFFF ∧ x.x2.toNat ≤ 0x03FFFFFF ∧ x.x3.toNat ≤ 0x03FFFFFF ∧
  x.x4.toNat ≤ 0x03FFFFFF ∧ (2 ^ 26 ≤ x.x0.toNat → x.x1.toNat ≤ 37)

/-- The first pass. A carry out of limb 4 has come through limbs 3 and 2 from limb 1, which then keeps at most 37. -/
theorem carryPass_oncePassed {h : Limbs} (hh : AccumulatorBounded h) : OncePassed (carryPass h) := by
  obtain ⟨h0, h1, h2, h3, h4⟩ := hh
  obtain ⟨c0, c1, c2, c3, c4⟩ := carriedLimbs_toNat (h := h) (by omega) (by omega) (by omega) (by omega)
  obtain ⟨x0, x1, x2, x3, x4⟩ := carryPass_toNat h
  unfold OncePassed
  omega

/-- A pass takes P off the value for each unit of the carry out of limb 4: 2^130 goes and 5 comes back. -/
theorem carryPass_val {h : Limbs} (l1 : h.x1.toNat < 2 ^ 31) (l2 : h.x2.toNat < 2 ^ 31) (l3 : h.x3.toNat < 2 ^ 31)
    (l4 : h.x4.toNat < 2 ^ 31) : h.val = (carryPass h).val + Config.modulus * ((carriedLimbs h).x4.toNat / 2 ^ 26) := by
  obtain ⟨c0, c1, c2, c3, c4⟩ := carriedLimbs_toNat l1 l2 l3 l4
  obtain ⟨x0, x1, x2, x3, x4⟩ := carryPass_toNat h
  rw [Limbs.val, Limbs.val, x0, x1, x2, x3, x4, show Config.modulus = 2 ^ 130 - 5 from rfl]
  omega

theorem carryPass_val_mod {h : Limbs} (hh : AccumulatorBounded h) :
    (carryPass h).val % Config.modulus = h.val % Config.modulus := by
  obtain ⟨h0, h1, h2, h3, h4⟩ := hh
  rw [carryPass_val (h := h) (by omega) (by omega) (by omega) (by omega), Nat.add_mul_mod_self_left]

/-- The second pass: a carry out of limb 0 stops in limb 1, and none comes out of limb 4. -/
theorem carryPass_of_oncePassed {x : Limbs} (hx : OncePassed x) : FullyCarried (carryPass x) ∧ (carryPass x).val = x.val ∧
    (2 ^ 26 ≤ x.x0.toNat → (carryPass x).x1.toNat ≤ 38) := by
  obtain ⟨h0, h1, h2, h3, h4, hroom⟩ := hx
  obtain ⟨c0, c1, c2, c3, c4⟩ := carriedLimbs_toNat (h := x) (by omega) (by omega) (by omega) (by omega)
  obtain ⟨x0, x1, x2, x3, x4⟩ := carryPass_toNat x
  have hout : (carriedLimbs x).x4.toNat / 2 ^ 26 = 0 := by omega
  refine ⟨?_, ?_, ?_⟩
  · unfold FullyCarried; omega
  · rw [carryPass_val (h := x) (by omega) (by omega) (by omega) (by omega), hout, Nat.mul_zero, Nat.add_zero]
  · omega

theorem fullCarry_fullyCarried {h : Limbs} (hh : AccumulatorBounded h) : FullyCarried (fullCarry h) :=
  have ⟨hcarried, _, _⟩ := carryPass_of_oncePassed (carryPass_oncePassed hh)
  hcarried

theorem fullCarry_val {h : Limbs} (hh : AccumulatorBounded h) : (fullCarry h).val = (carryPass h).val :=
  have ⟨_, hval, _⟩ := carryPass_of_oncePassed (carryPass_oncePassed hh)
  hval

theorem fullCarry_val_mod {h : Limbs} (hh : AccumulatorBounded h) :
    (fullCarry h).val % Config.modulus = h.val % Config.modulus := by
  rw [fullCarry_val hh, carryPass_val_mod hh]

theorem FullyCarried.val_lt {h : Limbs} (hh : FullyCarried h) : h.val < 2 ^ 130 := by
  obtain ⟨h0, h1, h2, h3, h4⟩ := hh
  unfold Limbs.val
  omega

/-- Settles O38: the first pass bounds the limbs, the second one carries them fully and keeps the value itself. -/
theorem fullCarryNormalisesTheAccumulator : Obligations.FullCarryNormalisesTheAccumulator := by
  refine ⟨fun h => ⟨rfl, rfl⟩, fun h hh => ?_⟩
  have honce := carryPass_oncePassed hh
  obtain ⟨hcarried, hval, h38⟩ := carryPass_of_oncePassed honce
  obtain ⟨h0, h1, -⟩ := honce
  exact ⟨h0, h1, carryPass_val_mod hh, h38, hval, hcarried, hcarried.val_lt, fullCarry_val_mod hh⟩

/-! ### ReduceSelect (R83) -/

/-- The mask that ReduceSelect makes of a sign bit: all zeros for a negative word, all ones otherwise. -/
theorem signMask_eq (x : Word) : (x >>> 31) - 1 = if x.msb then 0 else BitVec.allOnes 32 := by
  have hx := x.isLt
  have hbit : x >>> 31 = if x.msb then 1 else 0 := by
    apply BitVec.eq_of_toNat_eq
    rw [ushiftRight_toNat, BitVec.msb_eq_decide]
    simp only [decide_eq_true_eq, apply_ite BitVec.toNat]
    split_ifs with hneg
    · show x.toNat / 2 ^ 31 = 1
      omega
    · show x.toNat / 2 ^ 31 = 0
      omega
  rw [hbit]
  split_ifs <;> decide

theorem reduceSelect_eq (h : Limbs) : reduceSelect h = if (tentative h).x4.msb then h else tentative h := by
  unfold reduceSelect
  simp only [signMask_eq]
  split_ifs <;> simp only [selectWord_zero, selectWord_allOnes]

/-- h + 5, limb 0 not yet carried. -/
def Limbs.addFive (h : Limbs) : Limbs := { h with x0 := h.x0 + 5 }

theorem tentative_eq_carriedLimbs (h : Limbs) : tentative h =
    ⟨(carriedLimbs h.addFive).x0 &&& limbMask, (carriedLimbs h.addFive).x1 &&& limbMask, (carriedLimbs h.addFive).x2 &&& limbMask,
      (carriedLimbs h.addFive).x3 &&& limbMask, (carriedLimbs h.addFive).x4 - 0x04000000⟩ := rfl

/-- The tentative value of fully carried limbs is computed without a wrap up to the last carry. -/
theorem carriedLimbs_addFive_toNat {h : Limbs} (hh : FullyCarried h) :
    (carriedLimbs h.addFive).x0.toNat = h.x0.toNat + 5 ∧
    (carriedLimbs h.addFive).x1.toNat = h.x1.toNat + (carriedLimbs h.addFive).x0.toNat / 2 ^ 26 ∧
    (carriedLimbs h.addFive).x2.toNat = h.x2.toNat + (carriedLimbs h.addFive).x1.toNat / 2 ^ 26 ∧
    (carriedLimbs h.addFive).x3.toNat = h.x3.toNat + (carriedLimbs h.addFive).x2.toNat / 2 ^ 26 ∧
    (carriedLimbs h.addFive).x4.toNat = h.x4.toNat + (carriedLimbs h.addFive).x3.toNat / 2 ^ 26 := by
  obtain ⟨h0, h1, h2, h3, h4⟩ := hh
  have hfive : (h.x0 + 5).toNat = h.x0.toNat + 5 := by
    rw [BitVec.toNat_add, show (5 : Word).toNat = 5 from rfl]
    omega
  obtain ⟨-, hrest⟩ := carriedLimbs_toNat (h := h.addFive) (h1.trans_lt (by decide)) (h2.trans_lt (by decide))
    (h3.trans_lt (by decide)) (h4.trans_lt (by decide))
  exact ⟨hfive, hrest⟩

/-- The tentative value of fully carried limbs: g4 is negative exactly when the value is below P; otherwise g4 is 0 and g is the value
less P. -/
theorem tentative_of_fullyCarried {h : Limbs} (hh : FullyCarried h) :
    ((tentative h).x4.msb = true ∧ h.val < Config.modulus) ∨
    ((tentative h).x4.msb = false ∧ h.val = (tentative h).val + Config.modulus ∧ FullyCarried (tentative h)) := by
  obtain ⟨c0, c1, c2, c3, c4⟩ := carriedLimbs_addFive_toNat hh
  obtain ⟨h0, h1, h2, h3, h4⟩ := hh
  have hg4 : (tentative h).x4.toNat = (2 ^ 32 - 2 ^ 26 + (carriedLimbs h.addFive).x4.toNat) % 2 ^ 32 := BitVec.toNat_sub ..
  rw [BitVec.msb_eq_decide, decide_eq_true_eq, decide_eq_false_iff_not, hg4, show Config.modulus = 2 ^ 130 - 5 from rfl]
  by_cases htop : (carriedLimbs h.addFive).x4.toNat < 2 ^ 26
  · refine .inl ⟨by omega, ?_⟩
    unfold Limbs.val
    omega
  · obtain ⟨g0, g1, g2, g3⟩ : (tentative h).x0.toNat = (carriedLimbs h.addFive).x0.toNat % 2 ^ 26 ∧
        (tentative h).x1.toNat = (carriedLimbs h.addFive).x1.toNat % 2 ^ 26 ∧
        (tentative h).x2.toNat = (carriedLimbs h.addFive).x2.toNat % 2 ^ 26 ∧
        (tentative h).x3.toNat = (carriedLimbs h.addFive).x3.toNat % 2 ^ 26 :=
      ⟨and_limbMask_toNat _, and_limbMask_toNat _, and_limbMask_toNat _, and_limbMask_toNat _⟩
    refine .inr ⟨by omega, ?_, ?_⟩
    · unfold Limbs.val
      omega
    · unfold FullyCarried
      omega

/-- ReduceSelect on fully carried limbs: nothing below P, one subtraction of P from P on. -/
theorem reduceSelect_cases {h : Limbs} (hh : FullyCarried h) :
    (h.val < Config.modulus ∧ reduceSelect h = h) ∨
    (h.val = (reduceSelect h).val + Config.modulus ∧ FullyCarried (reduceSelect h)) := by
  rw [reduceSelect_eq]
  obtain ⟨hmsb, hlt⟩ | ⟨hmsb, hval, hcarried⟩ := tentative_of_fullyCarried hh <;> rw [hmsb]
  · exact .inl ⟨hlt, rfl⟩
  · exact .inr ⟨hval, hcarried⟩

theorem reduceSelect_fullyCarried {h : Limbs} (hh : FullyCarried h) : FullyCarried (reduceSelect h) := by
  obtain ⟨-, heq⟩ | ⟨-, hcarried⟩ := reduceSelect_cases hh
  · rwa [heq]
  · exact hcarried

/-- Below 2^130 one subtraction of P is enough. -/
theorem reduceSelect_val {h : Limbs} (hh : FullyCarried h) : (reduceSelect h).val = h.val % Config.modulus := by
  have hlt := hh.val_lt
  obtain ⟨hmod, heq⟩ | ⟨hval, -⟩ := reduceSelect_cases hh
  · rw [heq, Nat.mod_eq_of_lt hmod]
  · rw [hval, Nat.add_mod_right, Nat.mod_eq_of_lt]
    rw [show Config.modulus = 2 ^ 130 - 5 from rfl] at hval ⊢
    omega

/-- Settles O39: the sign mask selects; on fully carried limbs the tentative value is negative exactly below P. -/
theorem reduceSelectIsTheResidue : Obligations.ReduceSelectIsTheResidue := by
  refine ⟨reduceSelect_eq, fun h hh => ⟨reduceSelect_val hh, reduceSelect_fullyCarried hh, fun hlt => ?_, fun hge => ?_⟩⟩
  · obtain ⟨-, heq⟩ | ⟨hval, -⟩ := reduceSelect_cases hh
    · exact heq
    · omega
  · obtain ⟨hlt, -⟩ | ⟨hval, -⟩ := reduceSelect_cases hh <;> omega

/-! ### TagAssemble (R84) -/

theorem Words4.val_lt (w : Words4) : w.val < 2 ^ 128 := by
  have h0 := w.x0.isLt
  have h1 := w.x1.isLt
  have h2 := w.x2.isLt
  have h3 := w.x3.isLt
  unfold Words4.val
  omega

/-- The bytes of four words are those of their number, little-endian. -/
theorem wordBytes_eq_leBytes (w : Words4) :
    wordBytes w.x0 ++ wordBytes w.x1 ++ wordBytes w.x2 ++ wordBytes w.x3 = leBytes 16 w.val := by
  have hval : leNat (wordBytes w.x0 ++ wordBytes w.x1 ++ wordBytes w.x2 ++ wordBytes w.x3) = w.val := by
    simp only [leNat_append, wordBytes_leNat, List.length_append, show ∀ x, (wordBytes x).length = 4 from fun _ => rfl, Words4.val]
    ring
  rw [← hval]
  exact (leBytes_leNat _).symm

/-- The next word of the sum, with the carry out of the word below. -/
theorem addWithCarry_carryOut_toNat (f k : Word) (below : BitVec 33) :
    (addWithCarry f k (below >>> 32)).toNat = f.toNat + k.toNat + below.toNat / 2 ^ 32 := by
  have := below.isLt
  rw [addWithCarry_toNat _ _ (by rw [ushiftRight_toNat]; omega), ushiftRight_toNat]

/-- The sum with carry of four words is the sum of their numbers, the last carry dropped. -/
theorem tagAssemble_val (h : Limbs) (k : Words4) : (tagAssemble h k).val = ((packLimbs h).val + k.val) % 2 ^ 128 := by
  simp only [tagAssemble, Words4.val, BitVec.toNat_setWidth, addWithCarry_carryOut_toNat,
    addWithCarry_toNat _ _ (show (0 : BitVec 33).toNat ≤ 1 by decide), show (0 : BitVec 33).toNat = 0 from rfl]
  omega

/-- A disjoint `|||` with a left shift, as a number: the limbs that share a word of the packing. -/
theorem or_shiftLeft_toNat (x y : Word) {j : Nat} (hj : j ≤ 32) (hx : x.toNat < 2 ^ j) :
    (x ||| (y <<< j)).toNat = x.toNat + y.toNat * 2 ^ j % 2 ^ 32 := by
  have hy : y.toNat * 2 ^ j % 2 ^ 32 = 2 ^ j * (y.toNat % 2 ^ (32 - j)) := by
    rw [show (2 : Nat) ^ 32 = 2 ^ j * 2 ^ (32 - j) by rw [← pow_add, Nat.add_sub_cancel' hj], Nat.mul_comm y.toNat,
      Nat.mul_mod_mul_left]
  rw [BitVec.toNat_or, BitVec.toNat_shiftLeft, Nat.shiftLeft_eq, hy, Nat.or_comm, ← Nat.two_pow_add_eq_or_of_lt hx, Nat.add_comm]

/-- A word of the packing: what is left of one 26-bit limb, and the limb above. -/
theorem packedWord_toNat {x : Word} (hx : x.toNat < 2 ^ 26) (y : Word) {i j : Nat} (hij : i + j = 26) :
    ((x >>> i) ||| (y <<< j)).toNat = x.toNat / 2 ^ i + y.toNat * 2 ^ j % 2 ^ 32 := by
  have hlow : x.toNat / 2 ^ i < 2 ^ j := by
    rwa [Nat.div_lt_iff_lt_mul (Nat.two_pow_pos i), ← pow_add, Nat.add_comm j i, hij]
  rw [← ushiftRight_toNat] at hlow ⊢
  exact or_shiftLeft_toNat _ _ (by omega) hlow

/-- Fully carried limbs are packed without overlap; what limb 4 has above bit 127 is dropped. -/
theorem packLimbs_val {h : Limbs} (hh : FullyCarried h) : (packLimbs h).val = h.val % 2 ^ 128 := by
  obtain ⟨h0, h1, h2, h3, h4⟩ := hh
  have f0 : (packLimbs h).x0.toNat = h.x0.toNat + h.x1.toNat * 2 ^ 26 % 2 ^ 32 :=
    or_shiftLeft_toNat h.x0 h.x1 (by decide) (by omega)
  have f1 : (packLimbs h).x1.toNat = h.x1.toNat / 2 ^ 6 + h.x2.toNat * 2 ^ 20 % 2 ^ 32 := packedWord_toNat (by omega) h.x2 rfl
  have f2 : (packLimbs h).x2.toNat = h.x2.toNat / 2 ^ 12 + h.x3.toNat * 2 ^ 14 % 2 ^ 32 := packedWord_toNat (by omega) h.x3 rfl
  have f3 : (packLimbs h).x3.toNat = h.x3.toNat / 2 ^ 18 + h.x4.toNat * 2 ^ 8 % 2 ^ 32 := packedWord_toNat (by omega) h.x4 rfl
  rw [Words4.val, Limbs.val, f0, f1, f2, f3]
  omega

theorem tagAssemble_val_of_fullyCarried {h : Limbs} (hh : FullyCarried h) (k : Words4) :
    (tagAssemble h k).val = (h.val % 2 ^ 128 + k.val) % 2 ^ 128 := by
  rw [tagAssemble_val, packLimbs_val hh]

/-- Settles O40: the sum of the packing and the mask, the packing of fully carried limbs, and the bytes. -/
theorem tagAssembleAddsTheMask : Obligations.TagAssembleAddsTheMask := fun h k =>
  ⟨tagAssemble_val h k, fun hh => tagAssemble_val_of_fullyCarried hh k, wordBytes_eq_leBytes _⟩

end Sys2Proof.Machine
end

section
/-! FINAL (spec/42_finalizer.md R80, R85): its failures, the bytes it writes, the number they stand for, and the cleared state it
leaves. -/

namespace Sys2Proof.Machine

/-! ### The command (R80) -/

/-- Clearing the message under the same key, with any OM, and answering. -/
theorem respond_clearMessageState {m : State} (hst : m.st = .ready) (om : Memory) :
    respond .ok 0 (clearMessageState (m.setMemory om)) =
      { m with h := ⟨0, 0, 0, 0, 0⟩, buf := Vector.replicate 16 0, off := 0, om := om, status := 0x00010000,
               observed := m.observed ++ [.response 0x00010000] } :=
  respond_ready hst

/-- Besides the tag in OM, FINAL writes the cleared message state and answers. -/
theorem finalResult_frame (a : Int) {m : State} (hst : m.st = .ready) : finalResult a m =
    { m with h := ⟨0, 0, 0, 0, 0⟩, buf := Vector.replicate 16 0, off := 0, om := m.om.writeWords4 a.toNat (tagWords m),
             status := 0x00010000, observed := m.observed ++ [.response 0x00010000] } :=
  respond_clearMessageState hst _

theorem tagWords_eq (m : State) : tagWords m = tagAssemble (reduceSelect (fullCarry
    (if m.off.val = 0 then m.h else foldBlock false (bufByte (padBuffer m.buf m.off.val)) m.r m.s m.h))) m.k := by
  rw [tagWords, flushPartial_h]

/-- The 16 bytes at A after FINAL are the tag words'. -/
theorem finalResult_readBytes {a : Int} {m : State} (hwf : m.om.wf) (h0 : 0 ≤ a) (h1 : a + 16 ≤ m.om.size) :
    (finalResult a m).om.readBytes a.toNat 16 = wordBytes (tagWords m).x0 ++ wordBytes (tagWords m).x1 ++
      wordBytes (tagWords m).x2 ++ wordBytes (tagWords m).x3 := by
  rw [finalResult_om]
  refine Memory.readBytes_writeBytes hwf a.toNat _ ?_
  show a.toNat + 16 ≤ m.om.size
  omega

/-- Settles O41: each failure by the check that comes to it; the window, the rest of OM and the registers by what FINAL leaves. -/
theorem finalWritesTheTag : Obligations.FinalWritesTheTag := by
  intro a m
  refine ⟨fun hst => ?_, fun hst hw => ?_, fun hst h0 hle hs => ?_, fun hst hoff hwf h0 h1 => ?_⟩
  · rw [execFinal_eq, if_pos hst]
  · rw [execFinal_eq, if_neg (by rw [hst]; decide), if_pos hw]
  · rw [execFinal_eq, if_neg (by rw [hst]; decide), if_neg (by omega), if_pos hs]
  · intro h w
    rw [show w = tagWords m from (tagWords_eq m).symm]
    refine ⟨_, final_completes hst hoff h0 h1, finalResult_readBytes hwf h0 h1, fun x hx => ?_, ?_, ?_⟩ <;>
      rw [finalResult_om]
    · refine read_writeWords4_of_not_writes h0 m.om _ ?_
      rintro ⟨hlo, hhi⟩
      omega
    · exact Memory.writeWords4_size ..
    · exact finalResult_frame a hst

/-! ### The number of the tag (R81 to R84) -/

/-- FullCarry, ReduceSelect and TagAssemble of a bounded accumulator: its residue modulo P, plus K, modulo 2^128. -/
theorem tagWords_val {m : State} (hh : AccumulatorBounded (flushPartial m).h) :
    (tagWords m).val = ((flushPartial m).h.val % Config.modulus + m.k.val) % 2 ^ 128 := by
  have hcarried := fullCarry_fullyCarried hh
  rw [tagWords, tagAssemble_val_of_fullyCarried (reduceSelect_fullyCarried hcarried), reduceSelect_val hcarried, fullCarry_val_mod hh,
    Nat.mod_add_mod]

theorem finalResult_readBytes_residue {a : Int} {m : State} (hh : AccumulatorBounded (flushPartial m).h) (hwf : m.om.wf)
    (h0 : 0 ≤ a) (h1 : a + 16 ≤ m.om.size) : (finalResult a m).om.readBytes a.toNat 16 =
      leBytes 16 (((flushPartial m).h.val % Config.modulus + m.k.val) % 2 ^ 128) := by
  rw [finalResult_readBytes hwf h0 h1, wordBytes_eq_leBytes, tagWords_val hh]

/-- The number whose residue FINAL takes: the accumulator, the pending bytes folded in. -/
def State.accumulated (m : State) : Nat := if m.off.val = 0 then m.h.val else (m.h.val + blockNumber m.pending) * m.r.val

theorem flushPartial_bounded {m : State} (hr : KeyClamped m.r) (hh : AccumulatorBounded m.h) :
    AccumulatorBounded (flushPartial m).h := by
  rw [flushPartial_h]
  split_ifs
  · exact hh
  · exact foldBlock_bounded false _ m.s hr hh

/-- The number of a padded block is the pending bytes' own block number, so the flush is Horner's step for it. -/
theorem flushPartial_val_mod {m : State} (hr : KeyClamped m.r) (hs : MultiplesExact m.r m.s) (hh : AccumulatorBounded m.h)
    (hoff : m.off.val ≤ 15) : (flushPartial m).h.val % Config.modulus = m.accumulated % Config.modulus := by
  rw [flushPartial_h, State.accumulated]
  split_ifs
  · rfl
  · rw [foldBlock_val_mod false _ hh hr hs, leNat_padBuffer m.buf hoff, blockNumber, m.pending_length]
    rfl

/-- The tag FINAL writes from a bounded state. -/
theorem finalResult_readBytes_accumulated {a : Int} {m : State} (hr : KeyClamped m.r) (hs : MultiplesExact m.r m.s)
    (hh : AccumulatorBounded m.h) (hoff : m.off.val ≤ 15) (hwf : m.om.wf) (h0 : 0 ≤ a) (h1 : a + 16 ≤ m.om.size) :
    (finalResult a m).om.readBytes a.toNat 16 = leBytes 16 ((m.accumulated % Config.modulus + m.k.val) % 2 ^ 128) := by
  rw [finalResult_readBytes_residue (flushPartial_bounded hr hh) hwf h0 h1, flushPartial_val_mod hr hs hh hoff]

/-- Settles O42: the invariant has the bounds the arithmetic needs. -/
theorem finalTagIsResiduePlusMask : Obligations.FinalTagIsResiduePlusMask := by
  intro a m hm hst h0 h1
  exact ⟨_, final_completes hst hm.offset h0 h1,
    finalResult_readBytes_accumulated hm.clamped hm.multiples hm.accumulator hm.offset hm.memory h0 h1⟩

theorem State.MessageCleared.off_val {m : State} (hm : m.MessageCleared) : m.off.val = 0 := by
  obtain ⟨-, -, hoff⟩ := hm
  rw [hoff]
  rfl

theorem State.MessageCleared.off_le {m : State} (hm : m.MessageCleared) : m.off.val ≤ 15 := hm.off_val.trans_le (Nat.zero_le 15)

theorem State.MessageCleared.accumulatorBounded {m : State} (hm : m.MessageCleared) : AccumulatorBounded m.h :=
  hm.1 ▸ accumulatorBounded_zero

theorem flushPartial_h_of_cleared {m : State} (hm : m.MessageCleared) : (flushPartial m).h = ⟨0, 0, 0, 0, 0⟩ := by
  rw [flushPartial_h, if_pos hm.off_val, hm.1]

/-- Settles O44: nothing is pending and the accumulator is zero, so the residue is 0. -/
theorem emptyMessageTagIsTheMask : Obligations.EmptyMessageTagIsTheMask := by
  intro a m hst hm hwf h0 h1
  have hflush := flushPartial_h_of_cleared hm
  refine ⟨_, final_completes hst hm.off_le h0 h1, ?_⟩
  rw [finalResult_readBytes_residue (hflush ▸ accumulatorBounded_zero) hwf h0 h1, hflush,
    show (⟨0, 0, 0, 0, 0⟩ : Limbs).val % Config.modulus = 0 from rfl, Nat.zero_add, Nat.mod_eq_of_lt m.k.val_lt]

/-! ### The cleared state (R85) -/

theorem statusCode_failedWith_ne_zero {code : Byte} (h : code = 1 ∨ code = 2 ∨ code = 3 ∨ code = 4) (m : State) :
    statusCode (failedWith code m).status ≠ 0 := by
  rw [failedWith_status, statusCode_responseWord]
  rcases h with rfl | rfl | rfl | rfl <;> decide

theorem loadkey_of_success {a l : Int} {m t : State} (h : exec (.loadkey a l) m = .next t) (hok : statusCode t.status = 0) :
    t = loadkeyResult a m := by
  obtain ⟨code, hcode, rfl⟩ | ⟨_, ⟨⟩, -, -, -, rfl⟩ | ⟨_, _, ⟨⟩, -⟩ | ⟨_, ⟨⟩, -⟩ | ⟨⟨⟩, -⟩ | ⟨⟨⟩, -⟩ | ⟨⟨⟩, -⟩ := exec_cases h
  · exact absurd hok (statusCode_failedWith_ne_zero hcode m)
  · rfl

theorem final_of_success {a : Int} {m t : State} (h : exec (.final a) m = .next t) (hok : statusCode t.status = 0) :
    t = finalResult a m := by
  obtain ⟨code, hcode, rfl⟩ | ⟨_, ⟨⟩, -⟩ | ⟨_, _, ⟨⟩, -⟩ | ⟨_, ⟨⟩, -, -, -, -, rfl⟩ | ⟨⟨⟩, -⟩ | ⟨⟨⟩, -⟩ | ⟨⟨⟩, -⟩ := exec_cases h
  · exact absurd hok (statusCode_failedWith_ne_zero hcode m)
  · rfl

/-- FINAL, when it succeeds, and RESET leave the same state, OM apart. -/
theorem cleared_by_final_or_reset {m t : State}
    (h : (∃ a, exec (.final a) m = .next t ∧ statusCode t.status = 0) ∨ exec .reset m = .next t) :
    ∃ om, t = respond .ok 0 (clearMessageState (m.setMemory om)) := by
  obtain ⟨a, hfinal, hok⟩ | hreset := h
  · exact ⟨_, final_of_success hfinal hok⟩
  · cases hreset
    exact ⟨m.om, rfl⟩

/-- Settles O43: LOADKEY clears the message state too, and answers the same. -/
theorem clearedStateEqualsFreshlyKeyed : Obligations.ClearedStateEqualsFreshlyKeyed := by
  intro a₀ m₀ t₀ m t hload hok hst hr hs hk hclear
  obtain rfl := loadkey_of_success hload hok
  obtain ⟨om, rfl⟩ := cleared_by_final_or_reset hclear
  refine ⟨hr, hs, hk, rfl, rfl, rfl, hst, ?_, rfl, rfl, rfl⟩
  rw [respond_status, clearMessageState_st, State.setMemory_st, hst, loadkeyResult_status]
  rfl

end Sys2Proof.Machine
end

section
/-! The engine computes Poly1305 (spec/42_finalizer.md R86): the accumulator runs R86's loop over the whole blocks, FINAL does the last
one, and so a message's tag is Poly1305's. -/

namespace Sys2Proof.Machine

/-! ### The loop of R86, block by block -/

/-- The loop of R86 over the first n blocks of a message. -/
def polyBlocks (R : Nat) (msg : List Byte) (n : Nat) : Nat :=
  (List.range n).foldl (fun a i => ((a + blockNumber (messageBlock msg i)) * R) % Config.modulus) 0

theorem polyAccumulate_eq_polyBlocks (R : Nat) (msg : List Byte) :
    polyAccumulate R msg = polyBlocks R msg ((msg.length + 15) / 16) := rfl

theorem polyBlocks_zero (R : Nat) (msg : List Byte) : polyBlocks R msg 0 = 0 := rfl

theorem polyBlocks_succ (R : Nat) (msg : List Byte) (n : Nat) : polyBlocks R msg (n + 1) =
    ((polyBlocks R msg n + blockNumber (messageBlock msg n)) * R) % Config.modulus := by
  rw [polyBlocks, List.range_succ, List.foldl_append]
  rfl

/-- Horner's step sees its accumulator modulo P. -/
theorem horner_mod (a n R : Nat) : ((a % Config.modulus + n) * R) % Config.modulus = ((a + n) * R) % Config.modulus :=
  ((Nat.mod_modEq a Config.modulus).add_right n).mul_right R

theorem messageBlock_append {msg : List Byte} {i : Nat} (h : 16 * (i + 1) ≤ msg.length) (rest : List Byte) :
    messageBlock (msg ++ rest) i = messageBlock msg i := by
  rw [messageBlock, List.drop_append_of_le_length (by omega), List.take_append_of_le_length (by rw [List.length_drop]; omega),
    messageBlock]

/-- What follows whole blocks does not change them. -/
theorem polyBlocks_append (R : Nat) {msg : List Byte} {n : Nat} (h : 16 * n ≤ msg.length) (rest : List Byte) :
    polyBlocks R (msg ++ rest) n = polyBlocks R msg n := by
  induction n with
  | zero => rfl
  | succ n ih => rw [polyBlocks_succ, polyBlocks_succ, ih (by omega), messageBlock_append h]

/-- The last block of a message is what follows the whole blocks before it. -/
theorem messageBlock_last {msg : List Byte} {n : Nat} (h : msg.length ≤ 16 * (n + 1)) :
    messageBlock msg n = msg.drop (16 * n) :=
  List.take_of_length_le (by rw [List.length_drop]; omega)

/-! ### Absorbing a message (R70, R71) -/

theorem absorbBytes_bounded {m : State} (hr : KeyClamped m.r) (hh : AccumulatorBounded m.h) (hoff : m.off.val ≤ 15)
    (bs : List Byte) : AccumulatorBounded (absorbBytes m bs).h := by
  induction bs generalizing m with
  | nil => exact hh
  | cons b bs ih =>
    exact ih (by rwa [absorbByte_r]) (absorbByte_bounded hr hh hoff b) (absorbByte_off_le hoff b)

/-- Absorbing from a cleared message state stays within the bounds that the fold and FINAL need. -/
theorem absorbBytes_bounds_of_cleared {m : State} (hm : m.MessageCleared) (hr : KeyClamped m.r) (hs : MultiplesExact m.r m.s)
    (msg : List Byte) : KeyClamped (absorbBytes m msg).r ∧ MultiplesExact (absorbBytes m msg).r (absorbBytes m msg).s ∧
      AccumulatorBounded (absorbBytes m msg).h ∧ (absorbBytes m msg).off.val ≤ 15 := by
  refine ⟨?_, ?_, absorbBytes_bounded hr hm.accumulatorBounded hm.off_le msg, absorbBytes_off_le hm.off_le msg⟩
  · rwa [absorbBytes_r]
  · rwa [absorbBytes_r, absorbBytes_s]

/-- From a cleared message state the pending bytes are those after the message's whole blocks. -/
theorem absorbBytes_pending_of_cleared {m : State} (hm : m.MessageCleared) (msg : List Byte) :
    (absorbBytes m msg).off.val = msg.length % 16 ∧ (absorbBytes m msg).pending = msg.drop (16 * (msg.length / 16)) := by
  have hpending : m.pending = [] := by rw [State.pending, hm.off_val, firstBytes_zero]
  obtain ⟨hcount, hpend⟩ := absorbBytes_pending hm.off_le msg
  rw [hm.off_val, Nat.zero_add] at hcount hpend
  exact ⟨hcount, by rw [hpend, hpending, List.nil_append]⟩

/-- One byte absorbed, as to the accumulator: it stays, or takes Horner's step with the block that the byte completes. -/
theorem absorbByte_h_val_mod {m : State} (hr : KeyClamped m.r) (hs : MultiplesExact m.r m.s) (hh : AccumulatorBounded m.h)
    (hoff : m.off.val ≤ 15) (b : Byte) : (absorbByte m b).h.val % Config.modulus =
      if m.off.val = 15 then ((m.h.val + blockNumber (m.pending ++ [b])) * m.r.val) % Config.modulus
      else m.h.val % Config.modulus := by
  obtain ⟨hlt, h⟩ | ⟨heq, h⟩ := absorbByte_cases hoff b <;> rw [h, State.setBuffer_h]
  · rw [if_neg (by omega)]
  · have hblock : m.pending ++ [b] = firstBytes (bufByte (m.buf.setIfInBounds m.off b)) 16 := by
      rw [State.pending, ← firstBytes_setIfInBounds _ _ (by omega), heq]
    rw [if_pos heq, State.setAccumulator_h, foldBlock_val_mod true _ hh hr hs, hblock, blockNumber_full (firstBytes_length ..)]
    rfl

/-- The accumulator's residue after a message is R86's loop over the message's whole blocks. -/
theorem absorbBytes_h_val_mod {m : State} (hm : m.MessageCleared) (hr : KeyClamped m.r) (hs : MultiplesExact m.r m.s)
    (msg : List Byte) : (absorbBytes m msg).h.val % Config.modulus = polyBlocks m.r.val msg (msg.length / 16) := by
  induction msg using List.reverseRecOn with
  | nil => rw [absorbBytes_nil, hm.1]; rfl
  | append_singleton msg b ih =>
    obtain ⟨hcount, hpending⟩ := absorbBytes_pending_of_cleared hm msg
    obtain ⟨hr', hs', hh', hoff'⟩ := absorbBytes_bounds_of_cleared hm hr hs msg
    rw [absorbBytes_append, absorbBytes_cons, absorbBytes_nil, absorbByte_h_val_mod hr' hs' hh' hoff', hcount, hpending,
      absorbBytes_r, List.length_append, List.length_singleton]
    split_ifs with h15
    · have hlast : messageBlock (msg ++ [b]) (msg.length / 16) = msg.drop (16 * (msg.length / 16)) ++ [b] := by
        rw [messageBlock_last (by rw [List.length_append, List.length_singleton]; omega),
          List.drop_append_of_le_length (by omega)]
      rw [show (msg.length + 1) / 16 = msg.length / 16 + 1 by omega, polyBlocks_succ, polyBlocks_append _ (by omega), hlast, ← ih,
        horner_mod]
    · rw [show (msg.length + 1) / 16 = msg.length / 16 by omega, polyBlocks_append _ (by omega), ih]

/-- With the pending bytes, if there are any, as the last block, the loop has run over the whole message. -/
theorem absorbBytes_accumulated {m : State} (hm : m.MessageCleared) (hr : KeyClamped m.r) (hs : MultiplesExact m.r m.s)
    (msg : List Byte) : (absorbBytes m msg).accumulated % Config.modulus = polyAccumulate m.r.val msg := by
  obtain ⟨hcount, hpending⟩ := absorbBytes_pending_of_cleared hm msg
  have hblocks := absorbBytes_h_val_mod hm hr hs msg
  rw [State.accumulated, hcount, hpending, absorbBytes_r, polyAccumulate_eq_polyBlocks]
  split_ifs with hwhole
  · rw [hblocks, show (msg.length + 15) / 16 = msg.length / 16 by omega]
  · rw [show (msg.length + 15) / 16 = msg.length / 16 + 1 by omega, polyBlocks_succ, ← hblocks, horner_mod,
      messageBlock_last (by omega)]

/-! ### UPDATEs, then FINAL (R86) -/

/-- FINAL after a message, whatever OM, STATUS and the record have become, writes the message's tag. -/
theorem finalResult_readBytes_of_absorbed {m : State} {msg : List Byte} (hm : m.MessageCleared) (hr : KeyClamped m.r)
    (hs : MultiplesExact m.r m.s) {om : Memory} (hwf : om.wf) {a : Int} (h0 : 0 ≤ a) (h1 : a + 16 ≤ om.size) (status : Word)
    (observed : List Observation) :
    (finalResult a { absorbBytes m msg with om := om, status := status, observed := observed }).om.readBytes a.toNat 16 =
      leBytes 16 ((polyAccumulate m.r.val msg + m.k.val) % 2 ^ 128) := by
  obtain ⟨hr', hs', hh', hoff'⟩ := absorbBytes_bounds_of_cleared hm hr hs msg
  rw [finalResult_readBytes_accumulated (m := { absorbBytes m msg with om := om, status := status, observed := observed })
    hr' hs' hh' hoff' hwf h0 h1]
  show leBytes 16 (((absorbBytes m msg).accumulated % Config.modulus + (absorbBytes m msg).k.val) % 2 ^ 128) = _
  rw [absorbBytes_accumulated hm hr hs, absorbBytes_k]

/-- From a cleared message state under any clamped key, UPDATEs and FINAL tag the message that the chunks make up. -/
theorem updates_final_tag {m : State} {chunks : List Chunk} {om : Memory} {a : Int} (hst : m.st = .ready) (hm : m.MessageCleared)
    (hr : KeyClamped m.r) (hs : MultiplesExact m.r m.s) (hin : ∀ c ∈ chunks, c.Inside) (hwf : om.wf) (h0 : 0 ≤ a)
    (h1 : a + 16 ≤ om.size) :
    ∃ t u, runUpdates chunks m = some t ∧ exec (.final a) { t with om := om } = .next u ∧
      u.om.readBytes a.toNat 16 =
        leBytes 16 ((polyAccumulate m.r.val (chunks.flatMap Chunk.bytes) + m.k.val) % 2 ^ 128) ∧
      u.r = m.r ∧ u.s = m.s ∧ u.k = m.k ∧ u.MessageCleared := by
  obtain ⟨_, status, observed, hrun⟩ := runUpdates_eq hin hst hm.off_le
  exact ⟨_, _, hrun, final_completes ((absorbBytes_st ..).trans hst) (absorbBytes_off_le hm.off_le _) h0 h1,
    finalResult_readBytes_of_absorbed hm hr hs hwf h0 h1 status observed, (finalResult_r ..).trans (absorbBytes_r ..),
    (finalResult_s ..).trans (absorbBytes_s ..), (finalResult_k ..).trans (absorbBytes_k ..), finalResult_h .., finalResult_buf ..,
    finalResult_off ..⟩

/-- Settles O46: the invariant has the clamped key. -/
theorem clearedStateTagsTheNextMessage : Obligations.ClearedStateTagsTheNextMessage := by
  intro m chunks om a hm hst hcleared hin hwf h0 h1
  exact updates_final_tag hst hcleared hm.clamped hm.multiples hin hwf h0 h1

/-- The first key half, clamped, is R. -/
theorem loadkeyResult_r_val (a : Int) (m : State) :
    (loadkeyResult a m).r.val = clampNumber (leNat ((m.om.readBytes a.toNat 32).take 16)) := by
  rw [loadkeyResult_r, clamp_val, ← readBytes_eq_firstBytes, m.om.readBytes_add a.toNat 16 16,
    List.take_left' (Memory.readBytes_length ..)]

/-- The second key half is K. -/
theorem loadkeyResult_k_val_eq_drop (a : Int) (m : State) :
    (loadkeyResult a m).k.val = leNat (((m.om.readBytes a.toNat 32).drop 16).take 16) := by
  rw [loadkeyResult_k_val, m.om.readBytes_add a.toNat 16 16, List.drop_left' (Memory.readBytes_length ..),
    List.take_of_length_le (Memory.readBytes_length ..).le]

/-- Settles O45: LOADKEY leaves the clamped first half in r and the second half in k; under them UPDATEs and FINAL tag the message. -/
theorem engineComputesPoly1305 : Obligations.EngineComputesPoly1305 := by
  intro a₀ m₀ hst₀ h0₀ h1₀
  refine ⟨_, loadkey_completes hst₀ h0₀ h1₀, loadkeyResult_st a₀ m₀, ⟨loadkeyResult_h a₀ m₀, loadkeyResult_buf a₀ m₀,
    loadkeyResult_off a₀ m₀⟩, fun m chunks om a hst hr hs hk hm hin hwf h0 h1 => ?_⟩
  have hclamped : KeyClamped m.r := by rw [hr, loadkeyResult_r]; exact keyClamped_clamp _
  have hmultiples : MultiplesExact m.r m.s := by
    rw [hr, hs, loadkeyResult_r, loadkeyResult_s]
    exact multiplesExact_fiveTimes (keyClamped_clamp _)
  obtain ⟨t, u, hrun, hfinal, htag, -⟩ := updates_final_tag hst hm hclamped hmultiples hin hwf h0 h1
  refine ⟨t, u, hrun, hfinal, ?_⟩
  rw [htag, hr, hk, loadkeyResult_r_val, loadkeyResult_k_val_eq_drop, poly1305]

end Sys2Proof.Machine
end

section
/-! RESET, TAGLEN and DISPOSE, and the lifecycle of the engine (spec/43_lifecycle_commands.md R90 to R93). -/

namespace Sys2Proof.Machine

/-! ### The commands without operands (R90 to R92) -/

theorem responseWord_ok_zero (st : Lifecycle) : responseWord 0 0 st.bit = if st = .ready then 0x00010000 else 0x00000000 := by
  cases st <;> rfl

theorem responseWord_ok_sixteen (st : Lifecycle) : responseWord 0 16 st.bit = if st = .ready then 0x00011000 else 0x00001000 := by
  cases st <;> rfl

/-- Settles O47: RESET clears the message state, then answers with VAL 0. -/
theorem resetClearsTheMessage : Obligations.ResetClearsTheMessage := by
  intro m
  rw [execReset_eq, ← responseWord_ok_zero]
  rfl

/-- Settles O48: TAGLEN only answers, with VAL 16. -/
theorem taglenAnswersSixteen : Obligations.TaglenAnswersSixteen := by
  intro m
  rw [execTaglen_eq, ← responseWord_ok_sixteen]
  rfl

/-- Settles O49: what DISPOSE leaves is `State.afterReset`. -/
theorem disposeErasesEverySecret : Obligations.DisposeErasesEverySecret := execDispose_eq_afterReset

/-! ### The rows of the transition table (R93) -/

@[simp] theorem statusCode_failedWith (code : Byte) (m : State) : statusCode (failedWith code m).status = code :=
  statusCode_responseWord code 0 m.st.bit

@[simp] theorem statusCode_respond (code : CompletionCode) (val : Byte) (m : State) :
    statusCode (respond code val m).status = code.number :=
  statusCode_responseWord code.number val m.st.bit

theorem loadkeyResult_lifecycle (a : Int) (m : State) :
    (loadkeyResult a m).st = .ready ∧ statusCode (loadkeyResult a m).status = 0 :=
  ⟨loadkeyResult_st a m, statusCode_respond ..⟩

/-- LOADKEY's row. -/
theorem loadkey_lifecycle {a l : Int} {m t : State} (h : exec (.loadkey a l) m = .next t) :
    (m.st = .ready → t = failedWith 4 m) ∧
    (m.st = .uninitialized → l = 32 → 0 ≤ a → a + 32 ≤ m.om.size → t.st = .ready ∧ statusCode t.status = 0) ∧
    (m.st = .uninitialized → (l ≠ 32 ∨ a < 0 ∨ a + 32 > m.om.size) →
      t.st = .uninitialized ∧ (statusCode t.status = 1 ∨ statusCode t.status = 2)) := by
  rw [execLoadkey_eq] at h
  split_ifs at h with hst hl hw <;> cases h
  · simp [hst]
  · exact ⟨fun hready => absurd hready hst, fun _ h32 => absurd h32 hl, fun hun _ => ⟨hun, .inl (statusCode_failedWith ..)⟩⟩
  · exact ⟨fun hready => absurd hready hst, fun _ _ h0 h1 => by omega, fun hun _ => ⟨hun, .inr (statusCode_failedWith ..)⟩⟩
  · exact ⟨fun hready => absurd hready hst, fun _ _ _ _ => loadkeyResult_lifecycle a m, fun _ hbad => by omega⟩

/-- UPDATE's row. -/
theorem update_lifecycle {a l : Int} {m t : State} (h : exec (.update a l) m = .next t) :
    (m.st = .uninitialized → t.st = .uninitialized ∧ statusCode t.status = 4) ∧
    (m.st = .ready → t.st = .ready ∧ (statusCode t.status = 0 ∨ statusCode t.status = 2)) := by
  rw [execUpdate_eq] at h
  split_ifs at h with hst hw ho <;> cases h
  · simp [hst]
  · simp [hst]
  · exact ⟨fun hun => absurd hun hst, fun hready => ⟨(updateResult_st ..).trans hready, .inl (statusCode_respond ..)⟩⟩

/-- FINAL's row. -/
theorem final_lifecycle {a : Int} {m t : State} (h : exec (.final a) m = .next t) :
    (m.st = .uninitialized → t.st = .uninitialized ∧ statusCode t.status = 4) ∧
    (m.st = .ready → t.st = .ready ∧ (statusCode t.status = 0 ∨ statusCode t.status = 2 ∨ statusCode t.status = 3)) := by
  rw [execFinal_eq] at h
  split_ifs at h with hst hw hs ho <;> cases h
  · simp [hst]
  · simp [hst]
  · simp [hst]
  · exact ⟨fun hun => absurd hun hst, fun hready => ⟨(finalResult_st ..).trans hready, .inl (statusCode_respond ..)⟩⟩

/-! ### The edges (R93) -/

/-- No command moves the lifecycle but a LOADKEY that succeeds and DISPOSE. -/
theorem exec_st_cases {i : Instr} {m t : State} (h : exec i m = .next t) : t.st = m.st ∨
    ((∃ a l, i = .loadkey a l) ∧ t.st = .ready ∧ statusCode t.status = 0) ∨ (i = .dispose ∧ t.st = .uninitialized) := by
  obtain ⟨_, -, rfl⟩ | ⟨a, rfl, -, -, -, rfl⟩ | ⟨_, _, -, -, -, -, -, -, rfl⟩ | ⟨_, -, -, -, -, -, rfl⟩ | ⟨-, rfl⟩ | ⟨-, rfl⟩ |
    ⟨rfl, rfl⟩ := exec_cases h
  · exact .inl rfl
  · exact .inr (.inl ⟨⟨a, 32, rfl⟩, loadkeyResult_lifecycle a m⟩)
  · exact .inl (updateResult_st ..)
  · exact .inl (finalResult_st ..)
  · exact .inl rfl
  · exact .inl rfl
  · exact .inr (.inr ⟨rfl, rfl⟩)

/-- No action of the host moves the lifecycle but those two commands and hardware reset. -/
theorem perform_st_cases {act : HostAction} {m t : State} (h : perform act m = .next t) : t.st = m.st ∨
    ((∃ cw a l, act = .command cw ∧ decode cw = .command (.loadkey a l)) ∧ t.st = .ready ∧ statusCode t.status = 0) ∨
    (((∃ cw, act = .command cw ∧ decode cw = .command .dispose) ∨ ∃ contents, act = .hardwareReset contents) ∧
      t.st = .uninitialized) := by
  obtain ⟨cw, rfl, hcmd⟩ | ⟨_, _, -, -, -, rfl⟩ | ⟨_, _, -, -, -, rfl⟩ | ⟨_, -, rfl⟩ | ⟨_, _, -, rfl⟩ | ⟨contents, rfl, rfl⟩ :=
    perform_cases h
  · cases hd : decode cw with
    | command i =>
      obtain hst | ⟨⟨a, l, rfl⟩, hst⟩ | ⟨rfl, hst⟩ := exec_st_cases (acceptCommand_command hd m ▸ hcmd)
      · exact .inl hst
      · exact .inr (.inl ⟨⟨cw, a, l, rfl, hd⟩, hst⟩)
      · exact .inr (.inr ⟨.inl ⟨cw, rfl, hd⟩, hst⟩)
    | illegal why =>
      rw [acceptCommand_illegal hd] at hcmd
      cases hcmd
      exact .inl rfl
  · exact .inl rfl
  · exact .inl rfl
  · exact .inl rfl
  · exact .inl rfl
  · exact .inr (.inr ⟨.inr ⟨contents, rfl⟩, rfl⟩)

/-- R93's edge from Uninitialized to Ready. -/
theorem perform_makes_ready {act : HostAction} {m t : State} (h : perform act m = .next t) (hm : m.st = .uninitialized)
    (ht : t.st = .ready) : ∃ cw a l, act = .command cw ∧ decode cw = .command (.loadkey a l) ∧ statusCode t.status = 0 := by
  obtain hst | ⟨⟨cw, a, l, hact, hd⟩, -, hok⟩ | ⟨-, hst⟩ := perform_st_cases h
  · cases (ht.symm.trans hst).trans hm
  · exact ⟨cw, a, l, hact, hd, hok⟩
  · cases ht.symm.trans hst

/-- R93's edges from Ready to Uninitialized. -/
theorem perform_makes_uninitialized {act : HostAction} {m t : State} (h : perform act m = .next t) (hm : m.st = .ready)
    (ht : t.st = .uninitialized) :
    (∃ cw, act = .command cw ∧ decode cw = .command .dispose) ∨ ∃ contents, act = .hardwareReset contents := by
  obtain hst | ⟨-, hst, -⟩ | ⟨hact, -⟩ := perform_st_cases h
  · cases (ht.symm.trans hst).trans hm
  · cases ht.symm.trans hst
  · exact hact

/-- Settles O21: row by row by the equation of each command, the edges by what each action of the host does to ST. -/
theorem lifecycleTransitions : Obligations.LifecycleTransitions := by
  refine ⟨fun m t => ⟨fun _ _ => loadkey_lifecycle, fun _ _ => update_lifecycle, fun _ => final_lifecycle, fun h => ?_, fun h => ?_,
    fun h => ?_, fun cw why hd h => ?_, fun contents h => ?_⟩, fun act m t h =>
    ⟨perform_makes_ready h, perform_makes_uninitialized h⟩⟩
  · cases h
    exact ⟨rfl, statusCode_respond ..⟩
  · cases h
    exact ⟨rfl, statusCode_respond ..⟩
  · cases h
    exact ⟨rfl, statusCode_respond ..⟩
  · rw [acceptCommand_illegal hd] at h
    cases h
    exact ⟨rfl, statusCode_failedWith ..⟩
  · cases h
    rfl

end Sys2Proof.Machine
end

section
/-! Failures (spec/60_exceptions.md R101 to R108): a command that fails is `failedWith` its code, on any OM of that size; no command looks
at the responses before it; and the order of the checks. -/

namespace Sys2Proof.Machine

/-! ### Failure entry (R107) -/

theorem exec_eq_failedWith {i : Instr} {m t : State} (h : exec i m = .next t) (hcode : statusCode t.status ≠ 0) :
    ∃ code, t = failedWith code m := by
  obtain ⟨code, -, rfl⟩ | ⟨_, -, -, -, -, rfl⟩ | ⟨_, _, -, -, -, -, -, -, rfl⟩ | ⟨_, -, -, -, -, -, rfl⟩ | ⟨-, rfl⟩ | ⟨-, rfl⟩ |
    ⟨-, rfl⟩ := exec_cases h
  · exact ⟨code, rfl⟩
  all_goals exact absurd (statusCode_respond ..) hcode

theorem acceptCommand_eq_failedWith {cw : CommandWord} {m t : State} (h : acceptCommand cw m = .next t)
    (hcode : statusCode t.status ≠ 0) : ∃ code, t = failedWith code m := by
  cases hd : decode cw with
  | command i => exact exec_eq_failedWith (acceptCommand_command hd m ▸ h) hcode
  | illegal why =>
    rw [acceptCommand_illegal hd] at h
    cases h
    exact ⟨5, rfl⟩

/-- A failing command does the same on every OM of that size. What it leaves of the other OM is that OM, for it fails there too. -/
theorem exec_setMemory_of_failure {i : Instr} {m t : State} (h : exec i m = .next t) (hcode : statusCode t.status ≠ 0) {om : Memory}
    (hsize : om.size = m.om.size) : exec i (m.setMemory om) = .next (t.setMemory om) := by
  obtain ⟨om', hruns, -⟩ := exec_setMemory h hsize fun hok => absurd hok hcode
  obtain ⟨code, hfail⟩ := exec_eq_failedWith hruns hcode
  obtain rfl : om' = om := congrArg State.om hfail
  exact hruns

theorem acceptCommand_setMemory_of_failure {cw : CommandWord} {m t : State} (h : acceptCommand cw m = .next t)
    (hcode : statusCode t.status ≠ 0) {om : Memory} (hsize : om.size = m.om.size) :
    acceptCommand cw (m.setMemory om) = .next (t.setMemory om) := by
  cases hd : decode cw with
  | command i =>
    rw [acceptCommand_command hd] at h ⊢
    exact exec_setMemory_of_failure h hcode hsize
  | illegal why =>
    rw [acceptCommand_illegal hd] at h ⊢
    cases h
    rfl

/-- Settles O18: the failed state is `failedWith` its code, and the same on another OM. -/
theorem failureChangesOnlyStatus : Obligations.FailureChangesOnlyStatus := by
  intro cw m t h hcode
  obtain ⟨code, rfl⟩ := acceptCommand_eq_failedWith h hcode
  exact ⟨rfl, statusVal_responseWord .., statusRdy_responseWord .., fun _ => acceptCommand_setMemory_of_failure h hcode⟩

/-! ### After a failure (R108) -/

theorem absorbBytes_answer (m : State) (rsp : Word) (bs : List Byte) :
    absorbBytes (m.answer rsp) bs = (absorbBytes m bs).answer rsp := by
  induction bs generalizing m with
  | nil => rfl
  | cons b bs ih => rw [absorbBytes_cons, absorbByte_answer, ih, absorbBytes_cons]

/-- A response does not depend on the one before it; only the record has both. -/
theorem respond_answer (code : CompletionCode) (val : Byte) (m : State) (rsp : Word) :
    ∃ obs, respond code val (m.answer rsp) = { respond code val m with observed := obs } := ⟨_, rfl⟩

theorem State.setMemory_answer (m : State) (om : Memory) (rsp : Word) :
    (m.answer rsp).setMemory om = (m.setMemory om).answer rsp := rfl

theorem clearMessageState_answer (m : State) (rsp : Word) :
    clearMessageState (m.answer rsp) = (clearMessageState m).answer rsp := rfl

theorem loadkeyResult_answer (a : Int) (m : State) (rsp : Word) :
    ∃ obs, loadkeyResult a (m.answer rsp) = { loadkeyResult a m with observed := obs } := ⟨_, rfl⟩

theorem updateResult_answer (a l : Int) (m : State) (rsp : Word) :
    ∃ obs, updateResult a l (m.answer rsp) = { updateResult a l m with observed := obs } := by
  unfold updateResult
  rw [absorbBytes_answer]
  exact respond_answer .ok 0 _ rsp

theorem tagWords_answer (m : State) (rsp : Word) : tagWords (m.answer rsp) = tagWords m :=
  (tagWords_eq _).trans (tagWords_eq m).symm

theorem finalResult_answer (a : Int) (m : State) (rsp : Word) :
    ∃ obs, finalResult a (m.answer rsp) = { finalResult a m with observed := obs } := by
  unfold finalResult
  rw [tagWords_answer, State.answer_om, State.setMemory_answer, clearMessageState_answer]
  exact respond_answer .ok 0 _ rsp

/-- No command looks at STATUS or at what the host was answered: after a response it does the same, the record apart.
Its checks take the same branch, and in each branch the outcome differs in the record alone. -/
theorem exec_answer {i : Instr} {m v : State} (h : exec i m = .next v) (rsp : Word) :
    ∃ obs, exec i (m.answer rsp) = .next { v with observed := obs } := by
  cases i with
  | loadkey a l =>
    obtain ⟨obs, hresult⟩ := loadkeyResult_answer a m rsp
    rw [execLoadkey_eq] at h ⊢
    rw [State.answer_st, State.answer_om, hresult]
    split_ifs at h ⊢ <;> cases h <;> exact ⟨_, rfl⟩
  | update a l =>
    obtain ⟨obs, hresult⟩ := updateResult_answer a l m rsp
    rw [execUpdate_eq] at h ⊢
    rw [State.answer_st, State.answer_om, State.answer_off, hresult]
    split_ifs at h ⊢ <;> cases h <;> exact ⟨_, rfl⟩
  | final a =>
    obtain ⟨obs, hresult⟩ := finalResult_answer a m rsp
    rw [execFinal_eq] at h ⊢
    rw [State.answer_st, State.answer_om, State.answer_off, hresult]
    split_ifs at h ⊢ <;> cases h <;> exact ⟨_, rfl⟩
  | reset => cases h; exact ⟨_, rfl⟩
  | taglen => cases h; exact ⟨_, rfl⟩
  | dispose => cases h; exact ⟨_, rfl⟩

theorem acceptCommand_answer {cw : CommandWord} {m v : State} (h : acceptCommand cw m = .next v) (rsp : Word) :
    ∃ obs, acceptCommand cw (m.answer rsp) = .next { v with observed := obs } := by
  cases hd : decode cw with
  | command i =>
    rw [acceptCommand_command hd] at h ⊢
    exact exec_answer h rsp
  | illegal why =>
    rw [acceptCommand_illegal hd] at h ⊢
    cases h
    exact ⟨_, rfl⟩

theorem failedWith_eq_answer (code : Byte) (m : State) : failedWith code m = m.answer (responseWord code 0 m.st.bit) := rfl

/-- Settles O19: the failed state is the state before, answered; the failed word is one of the words that may follow. -/
theorem failedCommandLeavesNoTrace : Obligations.FailedCommandLeavesNoTrace := by
  intro cw m t h hcode
  have hnext : ∀ (cw' : CommandWord) (v : State), acceptCommand cw' m = .next v →
      ∃ obs, acceptCommand cw' t = .next { v with observed := obs } := by
    obtain ⟨code, rfl⟩ := acceptCommand_eq_failedWith h hcode
    exact fun _ _ hv => acceptCommand_answer hv _
  refine ⟨fun cw' v hv => ?_, ?_⟩
  · obtain ⟨obs, hu⟩ := hnext cw' v hv
    exact ⟨_, hu, rfl⟩
  · obtain ⟨obs, hu⟩ := hnext cw t h
    exact ⟨_, hu, rfl⟩

/-! ### The order of the checks (R106) -/

/-- A command, begun in `m`, completes with `code`, and a non-zero code means that it has failed. -/
def CompletesWith (code : Byte) (m : State) (o : Host.Outcome State Fault Refusal) : Prop :=
  ∃ t, o = .next t ∧ statusCode t.status = code ∧ (code ≠ 0 → t = failedWith code m)

theorem completesWith_failedWith (code : Byte) (m : State) : CompletesWith code m (.next (failedWith code m)) :=
  ⟨_, rfl, statusCode_failedWith .., fun _ => rfl⟩

theorem completesWith_respond_ok (val : Byte) (m m' : State) : CompletesWith 0 m (.next (respond .ok val m')) :=
  ⟨_, rfl, statusCode_respond .., fun hne => absurd rfl hne⟩

theorem loadkey_completesWith (a l : Int) (m : State) :
    CompletesWith (if m.st = .ready then 4 else if l ≠ 32 then 1 else if a < 0 ∨ a + 32 > m.om.size then 2 else 0) m
      (exec (.loadkey a l) m) := by
  rw [execLoadkey_eq]
  split_ifs
  · exact completesWith_failedWith 4 m
  · exact completesWith_failedWith 1 m
  · exact completesWith_failedWith 2 m
  · exact completesWith_respond_ok 0 m _

theorem update_completesWith (a l : Int) {m : State} (hoff : m.off.val ≤ 15) :
    CompletesWith (if m.st = .uninitialized then 4 else if a < 0 ∨ l < 0 ∨ a + l > m.om.size then 2 else 0) m
      (exec (.update a l) m) := by
  rw [execUpdate_eq]
  split_ifs with _ _ hfull
  · exact completesWith_failedWith 4 m
  · exact completesWith_failedWith 2 m
  · exact absurd hfull.1 (off_ne_sixteen hoff)
  · exact completesWith_respond_ok 0 m _

theorem final_completesWith (a : Int) {m : State} (hoff : m.off.val ≤ 15) :
    CompletesWith (if m.st = .uninitialized then 4 else if a < 0 ∨ a > m.om.size then 2 else if a + 16 > m.om.size then 3 else 0) m
      (exec (.final a) m) := by
  rw [execFinal_eq]
  split_ifs with _ _ _ hfull
  · exact completesWith_failedWith 4 m
  · exact completesWith_failedWith 2 m
  · exact completesWith_failedWith 3 m
  · exact absurd hfull (off_ne_sixteen hoff)
  · exact completesWith_respond_ok 0 m _

/-- Settles O20: an illegal word fails at once; every command completes with the code of the first of its checks that fails. -/
theorem checksInFixedOrder : Obligations.ChecksInFixedOrder := by
  intro cw m hoff
  cases hd : decode cw with
  | illegal why =>
    rw [acceptCommand_illegal hd]
    exact completesWith_failedWith 5 m
  | command i =>
    rw [acceptCommand_command hd]
    cases i with
    | loadkey a l => exact loadkey_completesWith a l m
    | update a l => exact update_completesWith a l hoff
    | final a => exact final_completesWith a hoff
    | reset => exact completesWith_respond_ok 0 m _
    | taglen => exact completesWith_respond_ok 16 m _
    | dispose => exact completesWith_respond_ok 0 m _

end Sys2Proof.Machine
end
